-- ==== Sys2Proof/Word.lean ====
section
/-! DEFINITION. The content of one memory cell. -/

namespace Sys2Proof

/-- One memory cell's content, a signed integer (00_scope.md R6). Which integers a cell can hold
depends on `WORD_BITS`: see `Machine.inRange`. The spec has no bytes and no bits (20_memory.md R43,
00_scope.md R11), so a word is an integer and not a bit vector. Where a value is compared or computed with, its type is
written `Int`. -/
abbrev Word := Int

end Sys2Proof
end

