-- ==== Sys2Proof/Config.lean ====
section
/-! DEFINITION. The parameters of a machine: fixed for a run, no instruction reads or changes them. -/

namespace Sys2Proof

/-- The open parameter `WORD_BITS` (00_scope.md R6, decision D1). -/
inductive WordBits where
  /-- `INF`: a cell holds any integer. -/
  | inf
  /-- A cell holds an `n`-bit two's-complement integer; `WordBits.wf` asks for `n >= 16`. -/
  | bits (n : Nat)
deriving DecidableEq, Repr

/-- What an implementation fixes. `State` carries it, so that a statement about every state is a
statement about every width (log entry 2). `N` and `INPUT`, the spec's other parameters, are the length
of the memory and the input queue at the start of a run (R7, R8). -/
structure Config where
  wordBits : WordBits
deriving DecidableEq, Repr

/-- The compatibility default of `INPUT` (00_scope.md R8). -/
def defaultInput : List Word := [1]

end Sys2Proof
end

