-- ==== Sys2Proof/Fields.lean ====
section
/-! DEFINITION. The named values the decoder reads from an instruction word, and the reasons a step can
fault. -/

namespace Sys2Proof

/-- An addressing mode (30_encoding.md R60, R68, R69): mode digit 0 or 1. -/
inductive Mode where
  /-- Digit 0: the parameter cell holds the operand's address. -/
  | position
  /-- Digit 1: the parameter cell holds the operand. -/
  | immediate
deriving DecidableEq, Repr

/-- The closed enumeration of operations (30_encoding.md R66). -/
inductive Opcode where
  | add
  | mul
  | inp
  | out
  | hlt
deriving DecidableEq, Repr

/-- Which digits of an instruction word an InvalidMode fault is about (10_state.md R26, `FAULT.param`). -/
inductive ModeDigit where
  /-- The hundreds digit, the mode of parameter 1. -/
  | param1
  /-- The thousands digit, the mode of parameter 2. -/
  | param2
  /-- The ten-thousands digit, the mode of parameter 3. -/
  | param3
  /-- A nonzero digit above the mode digits. -/
  | high
deriving DecidableEq, Repr

/-- The five faults of the block (60_exceptions.md R110), each with the report field that exists for that
fault only. A field not valid for the reason is absent (10_state.md R26; log entry 3). -/
inductive FaultReason where
  /-- Code 1: the word is negative or its opcode is not one of the five (R111). -/
  | invalidOpcode
  /-- Code 2: a mode digit is not 0 or 1, or a digit above the modes is not 0 (R112). -/
  | invalidMode (digit : ModeDigit)
  /-- Code 3: an access of any kind to the address `addr`, which is outside `[0, N)` (R113). -/
  | outOfBounds (addr : Int)
  /-- Code 4: an IN with no input value left (R117). -/
  | inputExhausted
  /-- Code 5: an ADD or MUL result that a cell cannot hold (R118). -/
  | overflow
deriving DecidableEq, Repr

end Sys2Proof
end

