-- ==== Sys2Proof/Syntax.lean ====
section
/-! DEFINITION. The instructions: one constructor per row of spec/opcode_table.json. -/

namespace Sys2Proof

/-- A decoded instruction word: the opcode and the modes of parameters 1, 2 and 3, which
`Decode` returns for every opcode (30_encoding.md R65). The parameters themselves are cells of memory
that the instruction reads when it executes (R68); they are no part of the word. There are exactly
forty values, one for each valid word (R74). -/
inductive Instr where
  /-- ADD, opcode 1 (40_arithmetic.md R82). -/
  | add (m1 m2 m3 : Mode)
  /-- MUL, opcode 2 (40_arithmetic.md R83). -/
  | mul (m1 m2 m3 : Mode)
  /-- IN, opcode 3 (41_io.md R90). -/
  | inp (m1 m2 m3 : Mode)
  /-- OUT, opcode 4 (41_io.md R91). -/
  | out (m1 m2 m3 : Mode)
  /-- HLT, opcode 99 (42_halt.md R100). -/
  | hlt (m1 m2 m3 : Mode)
deriving DecidableEq, Repr

end Sys2Proof
end

