-- ==== Sys2Proof/WellFormed.lean ====
section
/-! DEFINITION. Which parameters and which instruction words are well formed. An `Instr` needs no check
of its own: its fields are closed types, and each of its forty values is a valid word. -/

namespace Sys2Proof

/-- `WORD_BITS` is `INF` or at least 16, so that every valid word fits a cell (00_scope.md R6). -/
def WordBits.wf : WordBits → Bool
  | .inf => true
  | .bits n => decide (16 ≤ n)

def Config.wf (c : Config) : Bool := c.wordBits.wf

/-- A row of the machine-readable opcode table (30_encoding.md R79): `modulus` and `value` are the
row's `mask` and `match`, both decimal. -/
structure TableRow where
  mnemonic : String
  opcode   : Opcode
  modulus  : Nat
  value    : Nat
  width    : Nat
deriving DecidableEq, Repr

/-- The five rows of spec/opcode_table.json. -/
def opcodeTable : List TableRow :=
  [ { mnemonic := "ADD", opcode := .add, modulus := 100, value := 1,  width := 4 },
    { mnemonic := "MUL", opcode := .mul, modulus := 100, value := 2,  width := 4 },
    { mnemonic := "IN",  opcode := .inp, modulus := 100, value := 3,  width := 2 },
    { mnemonic := "OUT", opcode := .out, modulus := 100, value := 4,  width := 2 },
    { mnemonic := "HLT", opcode := .hlt, modulus := 100, value := 99, width := 1 } ]

/-- The row's `match_rule`: the word is not negative, its residue is the row's, its three mode digits
are 0 or 1 and no digit stands above them (30_encoding.md R79). -/
def TableRow.selects (r : TableRow) (w : Int) : Bool :=
  decide (0 ≤ w) && w.toNat % r.modulus == r.value &&
    decide (w.toNat / 100 % 10 ≤ 1) && decide (w.toNat / 1000 % 10 ≤ 1) &&
    decide (w.toNat / 10000 % 10 ≤ 1) && decide (w.toNat < 100000)

/-- A word that some row selects; every other word faults when fetched (30_encoding.md R72). -/
def validWord (w : Int) : Bool := opcodeTable.any (·.selects w)

end Sys2Proof
end

