-- ==== Sys2Proof/Decode.lean ====
section
/-! DEFINITION. The decoder, total on every word and rejecting by fault, and after it the encoder. -/

namespace Sys2Proof

/-! ## Decoding (30_encoding.md section 2) -/

/-- Decimal digit `j` of `n`, digit 0 being the units (00_scope.md R11). -/
def digit (j n : Nat) : Nat := n / 10 ^ j % 10

/-- The opcode field's meaning (R63, R66). -/
def opcodeOf : Nat → Option Opcode
  | 1 => some .add
  | 2 => some .mul
  | 3 => some .inp
  | 4 => some .out
  | 99 => some .hlt
  | _ => none

/-- A mode digit's meaning (R64). -/
def modeOf : Nat → Option Mode
  | 0 => some .position
  | 1 => some .immediate
  | _ => none

/-- The mode of parameter `k`, from the digit at `10^(k+1)`; a digit that is no mode raises
InvalidMode with the index `name` (R64). -/
def modeField (k : Nat) (name : ModeDigit) (n : Nat) : Except FaultReason Mode :=
  match modeOf (digit (k + 1) n) with
  | some m => .ok m
  | none => .error (.invalidMode name)

/-- The instruction of an opcode and its three modes. -/
def instrOf : Opcode → Mode → Mode → Mode → Instr
  | .add, m1, m2, m3 => .add m1 m2 m3
  | .mul, m1, m2, m3 => .mul m1 m2 m3
  | .inp, m1, m2, m3 => .inp m1 m2 m3
  | .out, m1, m2, m3 => .out m1 m2 m3
  | .hlt, m1, m2, m3 => .hlt m1 m2 m3

/-- The modes, once the opcode is known: parameter 1 first, then 2, then 3, then the digits above
(R65). All three are checked for every opcode (R64, R71). -/
def decodeModes (op : Opcode) (n : Nat) : Except FaultReason Instr := do
  let m1 ← modeField 1 .param1 n
  let m2 ← modeField 2 .param2 n
  let m3 ← modeField 3 .param3 n
  if n / 100000 ≠ 0 then .error (.invalidMode .high) else .ok (instrOf op m1 m2 m3)

/-- `Decode(W)` (R65): a negative word, then the opcode, then the modes. Pure: it reads nothing but the
word (R73). -/
def decode (w : Int) : Except FaultReason Instr :=
  if w < 0 then .error .invalidOpcode
  else
    match opcodeOf (w.toNat % 100) with
    | none => .error .invalidOpcode
    | some op => decodeModes op w.toNat

/-- The decoder as the host asks for it. A word of this ISA is one number and the opcode table's bits
are that number's (30_encoding.md R79: `encoding_radix` 10), so the width `_nbits` cuts nothing off. -/
def decodeTableWord (_nbits w : Nat) : Option Instr :=
  match decode (Int.ofNat w) with
  | .ok i => some i
  | .error _ => none

/-! ## Encoding (30_encoding.md R61, R66, R74) -/

/-- The opcode number of an operation (R66). -/
def opcodeNumber : Opcode → Nat
  | .add => 1
  | .mul => 2
  | .inp => 3
  | .out => 4
  | .hlt => 99

/-- The mode digit of a mode (R60). -/
def modeDigit : Mode → Nat
  | .position => 0
  | .immediate => 1

/-- The number of cells an instruction occupies, its word included: a function of the opcode alone
(R61, R67). -/
def width : Opcode → Nat
  | .add => 4
  | .mul => 4
  | .inp => 2
  | .out => 2
  | .hlt => 1

/-- `W = op + 100*m1 + 1000*m2 + 10000*m3` (R74). -/
def wordOf (op : Opcode) (m1 m2 m3 : Mode) : Int :=
  Int.ofNat
    (opcodeNumber op + 100 * modeDigit m1 + 1000 * modeDigit m2 + 10000 * modeDigit m3)

/-- The opcode of an instruction. -/
def opcode : Instr → Opcode
  | .add _ _ _ => .add
  | .mul _ _ _ => .mul
  | .inp _ _ _ => .inp
  | .out _ _ _ => .out
  | .hlt _ _ _ => .hlt

/-- The instruction word of an instruction. -/
def encode : Instr → Int
  | .add m1 m2 m3 => wordOf .add m1 m2 m3
  | .mul m1 m2 m3 => wordOf .mul m1 m2 m3
  | .inp m1 m2 m3 => wordOf .inp m1 m2 m3
  | .out m1 m2 m3 => wordOf .out m1 m2 m3
  | .hlt m1 m2 m3 => wordOf .hlt m1 m2 m3

end Sys2Proof
end

