-- ==== Sys2Proof/Machine/State.lean ====
section
/-! DEFINITION. The state of the block (10_state.md R20), its reset value, and the ways a step can stop. -/

namespace Sys2Proof.Machine

/-- The memory: exactly `N` cells, cell `i` being element `i` (10_state.md R22). Every address below `N`
holds a cell and none above does, so equal memories are equal lists and no address is "unlisted"
(log entry 1). -/
abbrev Memory := List Word

/-- The executor state `STATUS.state` (10_state.md R25). -/
inductive Status where
  | running
  | halted
  | faulted
deriving DecidableEq, Repr

/-- The fault record `FAULT` (10_state.md R26). `FAULT.addr` and `FAULT.param` are arguments of the
reasons they are valid for. -/
structure FaultReport where
  /-- `FAULT.reason`, with `addr` or `param`. -/
  reason : FaultReason
  /-- `FAULT.ip`: the value of `ip` at the faulting step. -/
  ip     : Nat
  /-- `FAULT.word`: the fetched word, absent when the fetch itself faulted. -/
  word   : Option Word
deriving DecidableEq, Repr

/-- The complete architectural state `(M, ip, status, fault, inq, outq)` (10_state.md R20), and the
configuration that a run keeps fixed (log entry 2). -/
structure State where
  /-- The parameters: not state in the spec, carried so that no width is assumed. -/
  cfg    : Config
  /-- `M`; its length is `N`. -/
  mem    : Memory
  /-- The instruction pointer (R23). -/
  ip     : Nat
  /-- `STATUS` (R25). -/
  status : Status
  /-- `FAULT` (R26); `none` is "not valid". -/
  fault  : Option FaultReport
  /-- The input values not yet consumed, next first (R27). -/
  inq    : List Word
  /-- The output values emitted so far, oldest first (R28). -/
  outq   : List Word
deriving DecidableEq, Repr

/-- The state right after reset, before a program is loaded (10_state.md R34, 70_reset_and_hazards.md
R130): the empty program, which R131 allows, with the default input of 00_scope.md R8. `mem` is log
entry 4 and `cfg` log entry 2. `Machine.load` gives the reset state of a program. -/
def State.reset : State :=
  { cfg := { wordBits := .inf }, mem := [], ip := 0, status := .running, fault := none,
    inq := defaultInput, outq := [] }

/-- Why `step` can stop without a next state. The block's own five faults are not here: a step that raises
one takes it, and answers a next state whose `status` is `faulted` (60_exceptions.md R115). -/
inductive Fault where
  /-- Raised by `step` on a Halted block: no step exists (42_halt.md R102, 93 U15 "stuck"). Safe: the
  hardware takes no step either. -/
  | halted
  /-- Raised by `step` on a Faulted block: no step exists (60_exceptions.md R116, 93 U15 "stuck"). Safe: the
  hardware takes no step either. -/
  | faulted
deriving DecidableEq, Repr

/-- What the model gives no meaning. -/
inductive Refusal where
  /-- Raised by `exec` for an instruction without a meaning; no arm raises it. Safe. -/
  | notModelled (mnemonic : String)
  /-- Raised by the port operation `load` alone: a program or input value does not fit a cell
  (70_reset_and_hazards.md R131, 93 U9). Safe: no run starts. -/
  | loadUnrepresentable
  /-- Raised by the port operation `load` alone: the program is longer than `2^(WORD_BITS-1)`
  (70_reset_and_hazards.md R131, 93 U10). Safe: no run starts. -/
  | loadTooLong
deriving DecidableEq, Repr

end Sys2Proof.Machine
end

