-- ==== Sys2Proof/Machine/Ops.lean ====
section
/-! DEFINITION. The named operations over the state: memory, the queues, the instruction pointer, taking a
fault, and fetching. Every meaning is built from these. -/

namespace Sys2Proof.Machine

/-! ## Memory (00_scope.md R12, 20_memory.md) -/

/-- An address is valid when `0 <= a < N`; a negative one never is (20_memory.md R41, R42). -/
def validAddr (m : Memory) (a : Int) : Bool := decide (0 ≤ a) && decide (a < m.length)

/-- The cell at an address, if the address is valid. -/
def cellAt (m : Memory) (a : Int) : Option Word := if a < 0 then none else m[a.toNat]?

/-- `MemRead(a)` (00_scope.md R12). -/
def memRead (m : Memory) (a : Int) : Except FaultReason Word :=
  match cellAt m a with
  | some v => .ok v
  | none => .error (.outOfBounds a)

/-- `M[t] <- v` for an address that has been checked (00_scope.md R12, 30_encoding.md R68 `Target`). -/
def writeCell (t : Nat) (v : Word) (s : State) : State := { s with mem := s.mem.set t v }

/-! ## The queues, the instruction pointer and the status (00_scope.md R13) -/

/-- `take()`: removes and returns the next input value, or raises InputExhausted (41_io.md R90). -/
def takeInput (s : State) : Except FaultReason (Word × State) :=
  match s.inq with
  | [] => .error .inputExhausted
  | v :: rest => .ok (v, { s with inq := rest })

/-- `emit(v)`: appends to the output queue; the sink always accepts (10_state.md R28, R32). -/
def emit (v : Word) (s : State) : State := { s with outq := s.outq ++ [v] }

/-- `ip <- ip + width(op)` (30_encoding.md R67, 10_state.md R23). -/
def advance (op : Opcode) (s : State) : State := { s with ip := s.ip + width op }

/-- `status <- Halted` (42_halt.md R100). -/
def setHalted (s : State) : State := { s with status := .halted }

/-! ## Taking a fault (60_exceptions.md R114, R115) -/

/-- Fault entry: `status` and the report are written and nothing else changes. `FAULT.word` is the
fetched `M[ip]`, absent exactly when that fetch is out of bounds (10_state.md R26). No instruction returns
from a fault (R116); only `Machine.load` starts a new run. -/
def takeFault (r : FaultReason) (s : State) : State :=
  { s with status := .faulted, fault := some { reason := r, ip := s.ip, word := s.mem[s.ip]? } }

/-- The end of an instruction: its commit, or the fault it raised taken in the state before it, so that a
faulting step commits nothing (20_memory.md R46, 60_exceptions.md R115). -/
def finish (s : State) (body : Except FaultReason State) : Host.Outcome State Fault Refusal :=
  match body with
  | .ok t => .next t
  | .error r => .next (takeFault r s)

/-! ## Fetch (70_reset_and_hazards.md R133, R134) -/

/-- Fetch at `ip`, then decode. -/
def fetchInstr (s : State) : Except FaultReason Instr := do
  let w ← memRead s.mem s.ip
  decode w

/-- Why a block that is not Running takes no step (R134 `require status = Running`). -/
def stopped (s : State) : Option Fault :=
  match s.status with
  | .running => none
  | .halted => some .halted
  | .faulted => some .faulted

/-- The memory with `w` and three zero cells after it at address `a`, made long enough for the four. -/
def placeWord (m : Memory) (a : Nat) (w : Word) : Memory :=
  let long := m ++ List.replicate (a + 4 - m.length) 0
  (((long.set a w).set (a + 1) 0).set (a + 2) 0).set (a + 3) 0

/-- `s` with the word of one instruction, and zeros as its parameters, where the next step fetches, and
Running so that the next step does fetch. It stands for a LOAD of a program that has that instruction at
`ip` (log entry 5). -/
def placeInstr (s : State) (w : Word) : State :=
  { s with mem := placeWord s.mem s.ip w, status := .running, fault := none }

end Sys2Proof.Machine
end

