-- ==== Sys2Proof/Machine/Flags.lean ====
section
/-! DEFINITION. The block has no flags (10_state.md R29). The one condition an arithmetic result is
tested for stands here: whether a cell can hold it. -/

namespace Sys2Proof.Machine

/-- `InRange(v)`: the value is in `Word` (00_scope.md R6, R10). -/
def inRange (b : WordBits) (v : Int) : Bool :=
  match b with
  | .inf => true
  | .bits n => decide (-(2 ^ (n - 1) : Int) ≤ v) && decide (v ≤ 2 ^ (n - 1) - 1)

/-- `N <= 2^(WORD_BITS-1)`: every address must fit a cell (00_scope.md R7). -/
def lengthFits (b : WordBits) (n : Nat) : Bool :=
  match b with
  | .inf => true
  | .bits k => decide (n ≤ 2 ^ (k - 1))

/-- The well-formedness of a memory: each cell holds a `Word`, and every address is one (10_state.md R22,
00_scope.md R6, R7). The form is canonical by itself: a list of cells lists each address once. -/
def Memory.wf (b : WordBits) (m : Memory) : Bool := m.all (inRange b) && lengthFits b m.length

/-- An exact result, or Overflow when a cell cannot hold it: it never wraps and never saturates
(40_arithmetic.md R81). -/
def checkResult (s : State) (r : Int) : Except FaultReason Word :=
  if inRange s.cfg.wordBits r then .ok r else .error .overflow

end Sys2Proof.Machine
end

