-- ==== Sys2Proof/Machine/Operands.lean ====
section
/-! DEFINITION. The operand forms (30_encoding.md section 3): parameter cells, sources in both modes, and
write targets. -/

namespace Sys2Proof.Machine

/-- `Param(k)`: the raw parameter cell `M[ip + k]` (R68). -/
def param (k : Nat) (s : State) : Except FaultReason Word := memRead s.mem (s.ip + k)

/-- `Resolve(k, m)`: Position reads the cell the parameter addresses, exactly one more read than
Immediate, which is the parameter itself (R68, R69). -/
def resolve (k : Nat) (m : Mode) (s : State) : Except FaultReason Word := do
  let p ← param k s
  match m with
  | .position => memRead s.mem p
  | .immediate => .ok p

/-- `Target(k)`: the parameter names the cell to write, whatever its mode digit, and is checked when it
is read (R68, R70). -/
def target (k : Nat) (s : State) : Except FaultReason Nat := do
  let t ← param k s
  if validAddr s.mem t then .ok t.toNat else .error (.outOfBounds t)

end Sys2Proof.Machine
end

