-- ==== Sys2Proof/Machine/Arithmetic.lean ====
section
/-! DEFINITION. ADD and MUL (40_arithmetic.md). -/

namespace Sys2Proof.Machine

/-- The common body of R82 and R83: source 1, source 2, target, the exact result, and then the commit.
All reads precede the write (20_memory.md R46). -/
def binaryBody (op : Opcode) (f : Int → Int → Int) (m1 m2 : Mode) (s : State) :
    Except FaultReason State := do
  let a ← resolve 1 m1 s
  let b ← resolve 2 m2 s
  let t ← target 3 s
  let r ← checkResult s (f a b)
  .ok (advance op (writeCell t r s))

/-- ADD (40_arithmetic.md R82). The target's mode digit has no effect (30_encoding.md R70). -/
def execAdd (m1 m2 _m3 : Mode) (s : State) : Host.Outcome State Fault Refusal :=
  finish s (binaryBody .add (fun a b => a + b) m1 m2 s)

/-- MUL (40_arithmetic.md R83). The target's mode digit has no effect (30_encoding.md R70). -/
def execMul (m1 m2 _m3 : Mode) (s : State) : Host.Outcome State Fault Refusal :=
  finish s (binaryBody .mul (fun a b => a * b) m1 m2 s)

end Sys2Proof.Machine
end

