-- ==== Sys2Proof/Machine/Halt.lean ====
section
/-! DEFINITION. HLT (42_halt.md). -/

namespace Sys2Proof.Machine

/-- HLT (42_halt.md R100): no parameter is read, and `ip` keeps the address of the HLT word. -/
def execHlt (_m1 _m2 _m3 : Mode) (s : State) : Host.Outcome State Fault Refusal :=
  .next (setHalted s)

end Sys2Proof.Machine
end

