-- ==== Sys2Proof/Machine/InputOutput.lean ====
section
/-! DEFINITION. IN and OUT (41_io.md). -/

namespace Sys2Proof.Machine

/-- The body of IN: the target is checked before the input is asked for (R90). -/
def inputBody (s : State) : Except FaultReason State := do
  let t ← target 1 s
  let (v, s') ← takeInput s
  .ok (advance .inp (writeCell t v s'))

/-- The body of OUT (R91). -/
def outputBody (m1 : Mode) (s : State) : Except FaultReason State := do
  let a ← resolve 1 m1 s
  .ok (advance .out (emit a s))

/-- IN (41_io.md R90). No mode digit has an effect (30_encoding.md R70, R71). -/
def execIn (_m1 _m2 _m3 : Mode) (s : State) : Host.Outcome State Fault Refusal :=
  finish s (inputBody s)

/-- OUT (41_io.md R91). The mode digits of the parameters it does not have are not consulted
(30_encoding.md R71). -/
def execOut (m1 _m2 _m3 : Mode) (s : State) : Host.Outcome State Fault Refusal :=
  finish s (outputBody m1 s)

end Sys2Proof.Machine
end

