-- ==== Sys2Proof/Machine/Dispatch.lean ====
section
/-! DEFINITION. The dispatch of the step function (70_reset_and_hazards.md R134). -/

namespace Sys2Proof.Machine

def exec (i : Instr) (s : State) : Host.Outcome State Fault Refusal :=
  match i with
  | .add m1 m2 m3 => Sys2Proof.Machine.execAdd m1 m2 m3 s
  | .mul m1 m2 m3 => Sys2Proof.Machine.execMul m1 m2 m3 s
  | .inp m1 m2 m3 => Sys2Proof.Machine.execIn m1 m2 m3 s
  | .out m1 m2 m3 => Sys2Proof.Machine.execOut m1 m2 m3 s
  | .hlt m1 m2 m3 => Sys2Proof.Machine.execHlt m1 m2 m3 s

end Sys2Proof.Machine
end

