-- ==== Sys2Proof/Machine/Step.lean ====
section
/-! DEFINITION. One step of the block (70_reset_and_hazards.md R134). -/

namespace Sys2Proof.Machine

/-- `Step(S)` (R134): only a Running block takes one; it fetches and decodes, taking the fault either
raises, and then executes the instruction. -/
def step (s : State) : Host.Outcome State Fault Refusal :=
  match stopped s with
  | some f => .fault f
  | none =>
    match fetchInstr s with
    | .error r => .next (takeFault r s)
    | .ok i => exec i s

/-- `s` with the instruction word `w` where the next step fetches (log entry 5). A word is one cell,
whatever its width in the table's bits. -/
def State.withFetchWord (s : State) (_nbits w : Nat) : State := placeInstr s (Int.ofNat w)

end Sys2Proof.Machine
end

