-- ==== Sys2Proof/Machine/Assembly.lean ====
section
/-! DEFINITION. Assembly statements, their encoding, labels and disassembly (30_encoding.md R75, R76). The
block itself never sees them: it is loaded with cells. -/

namespace Sys2Proof.Machine

/-- An operand as written: `a` has mode Position and `#v` mode Immediate. A write target may be written
either way (R75). -/
structure Operand (α : Type) where
  mode  : Mode
  value : α
deriving DecidableEq, Repr

/-- A statement (R75), its operand values being numbers or references. -/
inductive Statement (α : Type) where
  | add (s1 s2 d : Operand α)
  | mul (s1 s2 d : Operand α)
  | inp (d : Operand α)
  | out (s : Operand α)
  | hlt
  /-- `.word v, v, …` places raw cells; a directive, not an instruction (R76). -/
  | word (vs : List α)
deriving DecidableEq, Repr

/-- The mode digits of the operands a statement does not have. Its text does not show them (R75, R76); the
digits of the operands it has are Position here. -/
structure AbsentModes where
  m1 : Mode
  m2 : Mode
  m3 : Mode
deriving DecidableEq, Repr

/-- Mode digits of absent operands as a source statement has them: all 0 (R75). -/
def absentZero : AbsentModes := { m1 := .position, m2 := .position, m3 := .position }

/-- The cells of a statement with the given mode digits of absent operands: the word, and then one cell for
each operand (R75). -/
def assembleWith (absent : AbsentModes) : Statement Int → List Word
  | .add s1 s2 d => [wordOf .add s1.mode s2.mode d.mode, s1.value, s2.value, d.value]
  | .mul s1 s2 d => [wordOf .mul s1.mode s2.mode d.mode, s1.value, s2.value, d.value]
  | .inp d => [wordOf .inp d.mode absent.m2 absent.m3, d.value]
  | .out s => [wordOf .out s.mode absent.m2 absent.m3, s.value]
  | .hlt => [wordOf .hlt absent.m1 absent.m2 absent.m3]
  | .word vs => vs

/-- The cells of a source statement: mode digits of absent operands are 0 (R75). -/
def assemble (st : Statement Int) : List Word := assembleWith absentZero st

/-! ## Labels -/

/-- A signed decimal number or a label (R75). -/
inductive Ref where
  | num (v : Int)
  | label (name : String)
deriving DecidableEq, Repr

/-- One line: `name:` before a statement labels its first cell (R75). -/
structure Line where
  label     : Option String
  statement : Statement Ref
deriving DecidableEq, Repr

/-- How many cells a statement takes. -/
def statementSize {α : Type} : Statement α → Nat
  | .add _ _ _ => width .add
  | .mul _ _ _ => width .mul
  | .inp _ => width .inp
  | .out _ => width .out
  | .hlt => width .hlt
  | .word vs => vs.length

/-- The labels of a program whose first cell is at address `a`, each with its address. -/
def labelsFrom : Nat → List Line → List (String × Int)
  | _, [] => []
  | a, l :: ls =>
    let rest := labelsFrom (a + statementSize l.statement) ls
    match l.label with
    | some n => (n, Int.ofNat a) :: rest
    | none => rest

/-- A reference's value, if its label exists. -/
def refValue (labels : List (String × Int)) : Ref → Option Int
  | .num v => some v
  | .label n => labels.lookup n

/-- An operand with its reference resolved. -/
def resolveOperand (labels : List (String × Int)) (o : Operand Ref) : Option (Operand Int) :=
  (refValue labels o.value).map fun v => { mode := o.mode, value := v }

/-- A statement with its references resolved. -/
def resolveStatement (labels : List (String × Int)) : Statement Ref → Option (Statement Int)
  | .add s1 s2 d => do
    let a ← resolveOperand labels s1
    let b ← resolveOperand labels s2
    let t ← resolveOperand labels d
    some (.add a b t)
  | .mul s1 s2 d => do
    let a ← resolveOperand labels s1
    let b ← resolveOperand labels s2
    let t ← resolveOperand labels d
    some (.mul a b t)
  | .inp d => (resolveOperand labels d).map .inp
  | .out s => (resolveOperand labels s).map .out
  | .hlt => some .hlt
  | .word vs => (vs.mapM (refValue labels)).map .word

/-- The memory image of a program (R75, R78), refused when a label is missing or defined twice (log
entry 8). -/
def assembleProgram (ls : List Line) : Option (List Word) :=
  let labels := labelsFrom 0 ls
  if (labels.map (·.1)).Nodup then
    (ls.mapM fun l => resolveStatement labels l.statement).map fun ss => ss.flatMap assemble
  else none

/-! ## Disassembly (R76) -/

/-- What disassembly finds at the head of a list of cells. -/
structure Disassembly where
  /-- The statement, whose text is the disassembly's text. -/
  statement : Statement Int
  /-- The digits its text does not show, kept so that assembly reproduces the word. -/
  absent    : AbsentModes
  /-- The cells after it. -/
  rest      : List Word
deriving DecidableEq, Repr

/-- The statement at the head of a list of cells: the mnemonic from the opcode and `#` for each operand whose
mode digit is 1. The mode digits of absent operands are kept beside it, so that assembly reproduces the
cells for all 40 valid words (R76). A word that is not valid, or whose parameter cells are missing, is only
`.word` (log entry 8). -/
def disassemble : List Word → Option Disassembly
  | [] => none
  | w :: rest =>
    match decode w, rest with
    | .ok (.add m1 m2 m3), p1 :: p2 :: p3 :: rest' =>
      some { statement := .add ⟨m1, p1⟩ ⟨m2, p2⟩ ⟨m3, p3⟩, absent := absentZero, rest := rest' }
    | .ok (.mul m1 m2 m3), p1 :: p2 :: p3 :: rest' =>
      some { statement := .mul ⟨m1, p1⟩ ⟨m2, p2⟩ ⟨m3, p3⟩, absent := absentZero, rest := rest' }
    | .ok (.inp m1 m2 m3), p1 :: rest' =>
      some { statement := .inp ⟨m1, p1⟩, absent := ⟨.position, m2, m3⟩, rest := rest' }
    | .ok (.out m1 m2 m3), p1 :: rest' =>
      some { statement := .out ⟨m1, p1⟩, absent := ⟨.position, m2, m3⟩, rest := rest' }
    | .ok (.hlt m1 m2 m3), rest' =>
      some { statement := .hlt, absent := ⟨m1, m2, m3⟩, rest := rest' }
    | _, rest' => some { statement := .word [w], absent := absentZero, rest := rest' }

/-- The operation a statement's mnemonic names; `.word` names none. -/
def statementOpcode {α : Type} : Statement α → Option Opcode
  | .add _ _ _ => some .add
  | .mul _ _ _ => some .mul
  | .inp _ => some .inp
  | .out _ => some .out
  | .hlt => some .hlt
  | .word _ => none

/-- The text of an operand: `#` marks Immediate (R75). -/
def operandText (o : Operand Int) : String :=
  match o.mode with
  | .position => toString o.value
  | .immediate => "#" ++ toString o.value

/-- The text of a statement (R75, R76). -/
def statementText : Statement Int → String
  | .add s1 s2 d => "ADD " ++ operandText s1 ++ ", " ++ operandText s2 ++ ", " ++ operandText d
  | .mul s1 s2 d => "MUL " ++ operandText s1 ++ ", " ++ operandText s2 ++ ", " ++ operandText d
  | .inp d => "IN " ++ operandText d
  | .out s => "OUT " ++ operandText s
  | .hlt => "HLT"
  | .word vs => ".word " ++ String.intercalate ", " (vs.map toString)

end Sys2Proof.Machine
end

