-- ==== Sys2Proof/Machine/Ports.lean ====
section
/-! DEFINITION. The host interface (10_state.md section 8): the ports LOAD, STEP, STATUS, FAULT, OUT and MEM. -/

namespace Sys2Proof.Machine

/-- `LOAD(program, input)`: the start of a run, from whatever state (70_reset_and_hazards.md R130), refused
when a value or the length does not fit (R131; log entry 7 for the order of the two refusals). -/
def load (program input : List Word) (s : State) : Host.Outcome State Fault Refusal :=
  if !(program ++ input).all (inRange s.cfg.wordBits) then .refused .loadUnrepresentable
  else if !lengthFits s.cfg.wordBits program.length then .refused .loadTooLong
  else .next
    { cfg := s.cfg, mem := program, ip := 0, status := .running, fault := none, inq := input, outq := [] }

/-- The `STEP` port: one step of a Running block, ignored otherwise (10_state.md R32). -/
def stepPort (s : State) : State :=
  match step s with
  | .next t => t
  | .fault _ => s
  | .refused _ => s

/-- The `STATUS` port: the number of `STATUS.state` (10_state.md R25). -/
def statusPort (s : State) : Nat :=
  match s.status with
  | .running => 0
  | .halted => 1
  | .faulted => 2

/-- The number of a fault reason (60_exceptions.md R110). -/
def faultCode : FaultReason → Nat
  | .invalidOpcode => 1
  | .invalidMode _ => 2
  | .outOfBounds _ => 3
  | .inputExhausted => 4
  | .overflow => 5

/-- The number of an offending digit: the parameter's index, or 4 (10_state.md R26). -/
def digitIndex : ModeDigit → Nat
  | .param1 => 1
  | .param2 => 2
  | .param3 => 3
  | .high => 4

/-- The `FAULT` port: `reason`, `ip`, `word`, `addr` and `param`, each absent where it is not valid
(10_state.md R26). -/
structure FaultFields where
  reason : Nat
  ip     : Nat
  word   : Option Word
  addr   : Option Int
  param  : Option Nat
deriving DecidableEq, Repr

/-- `FAULT.addr` exists for OutOfBounds only. -/
def faultAddr : FaultReason → Option Int
  | .outOfBounds a => some a
  | .invalidOpcode => none
  | .invalidMode _ => none
  | .inputExhausted => none
  | .overflow => none

/-- `FAULT.param` exists for InvalidMode only. -/
def faultParam : FaultReason → Option Nat
  | .invalidMode d => some (digitIndex d)
  | .invalidOpcode => none
  | .outOfBounds _ => none
  | .inputExhausted => none
  | .overflow => none

/-- The `FAULT` port, valid only when `STATUS.state = 2`. -/
def faultPort (s : State) : Option FaultFields :=
  s.fault.map fun r =>
    { reason := faultCode r.reason, ip := r.ip, word := r.word, addr := faultAddr r.reason,
      param := faultParam r.reason }

/-- The `OUT` port: the values emitted so far, oldest first. -/
def outPort (s : State) : List Word := s.outq

/-- The `MEM(a)` port: `M[a]` for `0 <= a < N`. -/
def memPort (s : State) (a : Int) : Option Word := cellAt s.mem a

end Sys2Proof.Machine
end

