-- ==== Sys2Proof/Machine/Run.lean ====
section
/-! DEFINITION. A run: steps from the start of a program to the first state that is not Running
(70_reset_and_hazards.md R135, R137). -/

namespace Sys2Proof.Machine

/-- At most `k` steps; a stopped block stays as it is (10_state.md R32). -/
def run : Nat → State → State
  | 0, s => s
  | k + 1, s => run k (stepPort s)

/-- `ceil(N/2) + 1`, the most steps a run from the start of a program takes (42_halt.md R103). -/
def runFuel (s : State) : Nat := (s.mem.length + 1) / 2 + 1

/-- The end of the run of a loaded program (70_reset_and_hazards.md R135). -/
def runToEnd (s : State) : State := run (runFuel s) s

/-- What a run delivers (10_state.md R33, 70_reset_and_hazards.md R137). -/
inductive RunResult where
  /-- At Halted: the final memory and the output. -/
  | completed (mem : Memory) (outq : List Word)
  /-- At Faulted: the report, together with the precise state after the fault (60_exceptions.md R115), which
  is diagnostic (10_state.md R33). -/
  | faulted (report : Option FaultFields) (state : State)
  /-- The run has not ended. -/
  | unfinished
deriving DecidableEq, Repr

/-- The result of a state: at Halted the memory and the output, at Faulted the report and the state itself
(70_reset_and_hazards.md R137). -/
def runResult (s : State) : RunResult :=
  match s.status with
  | .running => .unfinished
  | .halted => .completed s.mem s.outq
  | .faulted => .faulted (faultPort s) s

/-- The single result value, a caller-specified cell, conventionally cell 0; only a completed run has one
(10_state.md R33). -/
def resultCell (r : RunResult) (a : Int) : Option Word :=
  match r with
  | .completed m _ => cellAt m a
  | .faulted _ _ => none
  | .unfinished => none

end Sys2Proof.Machine
end

