-- ==== Sys2Proof/Safety.lean ====
section
/-! DEFINITION. What claims are stated with: the invariant, the operand of an instruction said without the
resolver, the priority list of faults said without the step, and the record of a run. -/

namespace Sys2Proof.Machine

/-! ## The invariant -/

/-- The record is there exactly when the status is Faulted, and it names the faulting instruction, which
stands unchanged (10_state.md R26, 60_exceptions.md R114, R115). -/
def reportOk (s : State) : Bool :=
  match s.status, s.fault with
  | .faulted, some r => r.ip == s.ip && r.word == cellAt s.mem s.ip
  | .faulted, none => false
  | .running, r => r.isNone
  | .halted, r => r.isNone

/-- What holds of every state that a run reaches. -/
structure Inv (s : State) : Prop where
  /-- 00_scope.md R6. -/
  config : s.cfg.wf = true
  /-- 10_state.md R22, 00_scope.md R7. -/
  memory : s.mem.wf s.cfg.wordBits = true
  /-- 10_state.md R24. -/
  pointer : s.ip ≤ s.mem.length + 3
  /-- 10_state.md R27, R34. -/
  input : s.inq.all (inRange s.cfg.wordBits) = true
  /-- 10_state.md R28, R34. -/
  output : s.outq.all (inRange s.cfg.wordBits) = true
  /-- 10_state.md R26. -/
  report : reportOk s = true

/-- A safe run reaches Halt, "the only successful termination" (42_halt.md R100). -/
def RunsSafely (s : State) : Prop := (runToEnd s).status = .halted

/-! ## The operand of an instruction -/

/-- The value of source `k` in mode `m`: one read of memory for Immediate, two for Position
(30_encoding.md R68, R69). -/
def operandAt (s : State) (k : Nat) (m : Mode) : Option Word :=
  match m with
  | .immediate => cellAt s.mem (s.ip + k)
  | .position => (cellAt s.mem (s.ip + k)).bind (cellAt s.mem)

/-- The address that parameter `k` names as a write target, if it is valid (30_encoding.md R70). -/
def targetAt (s : State) (k : Nat) : Option Nat :=
  (cellAt s.mem (s.ip + k)).bind fun (t : Int) => if 0 ≤ t ∧ t < s.mem.length then some t.toNat else none

/-! ## The priority of faults (60_exceptions.md R119), as one flat list of conditions -/

/-- The content of a cell, 0 where there is none. A condition of the list is looked at only when every
condition before it fails, so the 0 decides nothing. -/
def cellOrZero (s : State) (a : Int) : Int := (cellAt s.mem a).getD 0

/-- Item 6 for a source: the parameter cell, then its address in Position mode. -/
def sourceChecks (s : State) (k mode : Nat) : List (Bool × FaultReason) :=
  let p := cellOrZero s (s.ip + k)
  [ (decide (s.mem.length ≤ s.ip + k), .outOfBounds (s.ip + k)),
    (mode == 0 && (decide (p < 0) || decide (s.mem.length ≤ p)), .outOfBounds p) ]

/-- Item 6 for a write target: the parameter cell, then the address. -/
def targetChecks (s : State) (k : Nat) : List (Bool × FaultReason) :=
  let p := cellOrZero s (s.ip + k)
  [ (decide (s.mem.length ≤ s.ip + k), .outOfBounds (s.ip + k)),
    (decide (p < 0) || decide (s.mem.length ≤ p), .outOfBounds p) ]

/-- The value of source `k` by its mode digit. -/
def sourceValue (s : State) (k mode : Nat) : Int :=
  let p := cellOrZero s (s.ip + k)
  if mode = 0 then cellOrZero s p else p

/-- Items 6, 7 and 8, by the opcode number and the first two mode digits. -/
def operandChecks (s : State) (op m1 m2 : Nat) : List (Bool × FaultReason) :=
  let a := sourceValue s 1 m1
  let b := sourceValue s 2 m2
  if op = 1 then
    sourceChecks s 1 m1 ++ sourceChecks s 2 m2 ++ targetChecks s 3 ++
      [(!inRange s.cfg.wordBits (a + b), .overflow)]
  else if op = 2 then
    sourceChecks s 1 m1 ++ sourceChecks s 2 m2 ++ targetChecks s 3 ++
      [(!inRange s.cfg.wordBits (a * b), .overflow)]
  else if op = 3 then targetChecks s 1 ++ [(s.inq.isEmpty, .inputExhausted)]
  else if op = 4 then sourceChecks s 1 m1
  else []

/-- All the conditions of a step, first to last (60_exceptions.md R119). -/
def faultChecks (s : State) : List (Bool × FaultReason) :=
  let w := cellOrZero s s.ip
  let op := w.toNat % 100
  let m1 := w.toNat / 100 % 10
  let m2 := w.toNat / 1000 % 10
  let m3 := w.toNat / 10000 % 10
  [ (decide (s.mem.length ≤ s.ip), .outOfBounds s.ip),
    (decide (w < 0), .invalidOpcode),
    (!([1, 2, 3, 4, 99].contains op), .invalidOpcode),
    (decide (1 < m1), .invalidMode .param1),
    (decide (1 < m2), .invalidMode .param2),
    (decide (1 < m3), .invalidMode .param3),
    (decide (100000 ≤ w), .invalidMode .high) ] ++ operandChecks s op m1 m2

/-- The fault a step reports: the first condition that holds. -/
def firstFault (s : State) : Option FaultReason := ((faultChecks s).find? (·.1)).map (·.2)

/-! ## The record of a run -/

/-- The instruction that the step from `s` completes, if it completes one. -/
def completedInstr (s : State) : Option Instr :=
  match step s, fetchInstr s with
  | .next t, .ok i => if t.status = .faulted then none else some i
  | _, _ => none

/-- The states, oldest first, from which one of the next `k` steps completes an instruction, each with that
instruction. -/
def history : Nat → State → List (State × Instr)
  | 0, _ => []
  | k + 1, s => ((completedInstr s).map (fun i => (s, i))).toList ++ history k (stepPort s)

/-- The value a completed OUT emits, in the state before it. -/
def emittedValue : State × Instr → Option Word
  | (s, .out m1 _ _) => operandAt s 1 m1
  | (_, .add _ _ _) => none
  | (_, .mul _ _ _) => none
  | (_, .inp _ _ _) => none
  | (_, .hlt _ _ _) => none

/-- The input value a completed IN consumes, in the state before it. -/
def consumedValue : State × Instr → Option Word
  | (s, .inp _ _ _) => s.inq.head?
  | (_, .add _ _ _) => none
  | (_, .mul _ _ _) => none
  | (_, .out _ _ _) => none
  | (_, .hlt _ _ _) => none

/-- The cell a completed instruction writes and the value it writes there, in the state before it
(10_state.md R22: ADD, MUL and IN). -/
def storedCell : State × Instr → Option (Nat × Int)
  | (s, .add m1 m2 _) => do
    let a : Int ← operandAt s 1 m1
    let b : Int ← operandAt s 2 m2
    let t ← targetAt s 3
    some (t, a + b)
  | (s, .mul m1 m2 _) => do
    let a : Int ← operandAt s 1 m1
    let b : Int ← operandAt s 2 m2
    let t ← targetAt s 3
    some (t, a * b)
  | (s, .inp _ _ _) => do
    let t ← targetAt s 1
    let v : Int ← s.inq.head?
    some (t, v)
  | (_, .out _ _ _) => none
  | (_, .hlt _ _ _) => none

/-- The value of a cell after a list of writes, oldest first, that began with the value `before`. -/
def valueAfter (before : Option Int) (a : Nat) : List (Nat × Int) → Option Int
  | [] => before
  | w :: ws => valueAfter (if w.1 = a then some w.2 else before) a ws

/-- What a fault leaves: the report and the status, and everything else as it was (60_exceptions.md R114,
R115). -/
def faultedWith (s : State) (r : FaultReason) : State :=
  { s with status := .faulted, fault := some { reason := r, ip := s.ip, word := cellAt s.mem s.ip } }

/-- The step from `s` faults with the reason `r`, and the report carries the word at `ip`. -/
def StepFaults (s : State) (r : FaultReason) : Prop :=
  ∃ t rep, step s = .next t ∧ t.status = .faulted ∧ t.fault = some rep ∧ rep.reason = r ∧
    rep.ip = s.ip ∧ rep.word = cellAt s.mem s.ip

end Sys2Proof.Machine
end

