-- ==== Sys2Proof/Certificates/Slice0/Obligations.lean ====
section
/-! DEFINITION. The statements for the provers. -/

open Sys2Proof Sys2Proof.Machine

/-! ## Reset, LOAD and the invariant -/

/-- 10_state.md section 9: the values the spec gives for reset. The empty memory and the width of `State.reset`
are the model's choices (log entries 2 and 4) and are not stated. -/
def Obligations.ResetHoldsTheGivenValues : Prop :=
  State.reset.ip = 0 ∧ State.reset.status = .running ∧ State.reset.inq = [1] ∧ State.reset.outq = []

/-- 70_reset_and_hazards.md section 1: what LOAD leaves, from whatever state, when everything fits. That no fault
is recorded is log entry 3 and is not stated. -/
def Obligations.LoadStartsARun : Prop :=
  ∀ (program input : List Word) (s : State),
    (s.cfg.wordBits = .inf ∨
      ∃ n, s.cfg.wordBits = .bits n ∧ program.length ≤ 2 ^ (n - 1) ∧
        ∀ v : Int, v ∈ program ++ input → -(2 ^ (n - 1) : Int) ≤ v ∧ v ≤ 2 ^ (n - 1) - 1) →
    ∃ t, load program input s = .next t ∧ t.mem = program ∧ t.ip = 0 ∧ t.status = .running ∧
      t.inq = input ∧ t.outq = [] ∧ t.cfg = s.cfg

/-- 70_reset_and_hazards.md section 1: a LOAD of what does not fit is refused; the empty program is loaded and
its first step faults. The spec's own choice (decisions D16, D17, D18). -/
def Obligations.LoadRefusesWhatDoesNotFit : Prop :=
  (∀ (program input : List Word) (s : State) (n : Nat), s.cfg.wordBits = .bits n →
    (2 ^ (n - 1) < program.length ∨
      ∃ v : Int, v ∈ program ++ input ∧ (v < -(2 ^ (n - 1) : Int) ∨ 2 ^ (n - 1) - 1 < v)) →
    ∃ r, load program input s = .refused r) ∧
  (∀ (input : List Word) (s : State), (∀ v : Int, v ∈ input → inRange s.cfg.wordBits v = true) →
    ∃ t u, load [] input s = .next t ∧ step t = .next u ∧ u.status = .faulted ∧
      u.fault = some { reason := .outOfBounds 0, ip := 0, word := none })

/-- The invariant holds at reset. It rests on the model's choices of log entries 2, 3 and 4. -/
def Obligations.ResetMeetsTheInvariant : Prop := Inv State.reset

/-- The invariant holds at the start of every run of a machine whose width is one the spec allows. Its clause
that no record is there is the model's reading of log entry 3. -/
def Obligations.LoadMeetsTheInvariant : Prop :=
  ∀ (program input : List Word) (s t : State), s.cfg.wf = true →
    load program input s = .next t → Inv t

/-- Every step keeps the invariant, from every state that has it: cells and queues hold words, `ip <= N + 3`
(10_state.md R24), and the record stands exactly in Faulted states (the model's reading, log entry 3). -/
def Obligations.StepKeepsTheInvariant : Prop :=
  ∀ s t : State, Inv s → step s = .next t → Inv t

/-! ## Decoding -/

/-- Decode and encode agree in both directions, for every word and every instruction. -/
def Obligations.DecodeInvertsEncodeExactly : Prop :=
  ∀ (w : Int) (i : Instr), decode w = .ok i ↔ w = encode i

/-- The table of valid words (30_encoding.md section 4), written out. -/
def Sys2Proof.Machine.listedWords : Opcode → List Int
  | .add => [1, 101, 1001, 1101, 10001, 10101, 11001, 11101]
  | .mul => [2, 102, 1002, 1102, 10002, 10102, 11002, 11102]
  | .inp => [3, 103, 1003, 1103, 10003, 10103, 11003, 11103]
  | .out => [4, 104, 1004, 1104, 10004, 10104, 11004, 11104]
  | .hlt => [99, 199, 1099, 1199, 10099, 10199, 11099, 11199]

/-- The table of 30_encoding.md section 4, which the spec derives: a word decodes to an instruction of an operation exactly when the table lists it
there, and the columns are `W = op + 100*m1 + 1000*m2 + 10000*m3`. -/
def Obligations.FortyWordsDecodeAndNoOther : Prop :=
  (∀ (w : Int) (op : Opcode),
    (∃ m1 m2 m3, decode w = .ok (instrOf op m1 m2 m3)) ↔ w ∈ listedWords op) ∧
  (∀ (op : Opcode) (m1 m2 m3 : Mode),
    decode ((opcodeNumber op + 100 * modeDigit m1 + 1000 * modeDigit m2 +
      10000 * modeDigit m3 : Nat) : Int) = .ok (instrOf op m1 m2 m3))

/-- 30_encoding.md section 5: a row of the opcode table selects exactly the words that decode to its operation,
and gives its width. -/
def Obligations.TableRowsSelectWhatDecodes : Prop :=
  ∀ row ∈ opcodeTable, row.width = width row.opcode ∧
    ∀ w : Int, row.selects w = true ↔ ∃ i, decode w = .ok i ∧ opcode i = row.opcode

/-- 30_encoding.md R73: for every word that decodes, the fields are the word's decimal digits. -/
def Obligations.DecodedFieldsAreTheDigits : Prop :=
  ∀ (w : Int) (op : Opcode) (m1 m2 m3 : Mode), decode w = .ok (instrOf op m1 m2 m3) →
    (opcodeNumber op : Int) = w % 100 ∧ (modeDigit m1 : Int) = w / 10 ^ 2 % 10 ∧
      (modeDigit m2 : Int) = w / 10 ^ 3 % 10 ∧ (modeDigit m3 : Int) = w / 10 ^ 4 % 10

/-- The whole decode function (30_encoding.md section 2), its faults in the order they are checked. The order,
the negative words and the digits above the modes are the spec's own choice (decisions D3, D4, D5, D6). -/
def Obligations.DecodeChecksInOrder : Prop :=
  ∀ w : Int,
    (w < 0 → decode w = .error .invalidOpcode) ∧
    (0 ≤ w → w % 100 ∉ ([1, 2, 3, 4, 99] : List Int) → decode w = .error .invalidOpcode) ∧
    (0 ≤ w → w % 100 ∈ ([1, 2, 3, 4, 99] : List Int) →
      (1 < w / 100 % 10 → decode w = .error (.invalidMode .param1)) ∧
      (w / 100 % 10 ≤ 1 → 1 < w / 1000 % 10 → decode w = .error (.invalidMode .param2)) ∧
      (w / 100 % 10 ≤ 1 → w / 1000 % 10 ≤ 1 → 1 < w / 10000 % 10 →
        decode w = .error (.invalidMode .param3)) ∧
      (w / 100 % 10 ≤ 1 → w / 1000 % 10 ≤ 1 → w / 10000 % 10 ≤ 1 → w / 100000 ≠ 0 →
        decode w = .error (.invalidMode .high)) ∧
      (w / 100 % 10 ≤ 1 → w / 1000 % 10 ≤ 1 → w / 10000 % 10 ≤ 1 → w / 100000 = 0 →
        ∃ op m1 m2 m3, decode w = .ok (instrOf op m1 m2 m3) ∧ (opcodeNumber op : Int) = w % 100 ∧
          (modeDigit m1 : Int) = w / 100 % 10 ∧ (modeDigit m2 : Int) = w / 1000 % 10 ∧
          (modeDigit m3 : Int) = w / 10000 % 10))

/-- Words of the spec's examples (30_encoding.md R77, 95_test_vectors.md section 2), one or two of each
family, decode to what they stand for. -/
def Obligations.WrittenOutWordsDecode : Prop :=
  decode 1101 = .ok (.add .immediate .immediate .position) ∧
  decode 11101 = .ok (.add .immediate .immediate .immediate) ∧
  decode 1002 = .ok (.mul .position .immediate .position) ∧
  decode 3 = .ok (.inp .position .position .position) ∧
  decode 104 = .ok (.out .immediate .position .position) ∧
  decode 1099 = .ok (.hlt .position .immediate .position)

/-! ## The step -/

/-- 70_reset_and_hazards.md R134: when the word at `ip` decodes, a step of a Running block is its
instruction executed in that state. -/
def Obligations.StepRunsTheDecodedInstruction : Prop :=
  ∀ (s : State) (w : Int) (i : Instr), s.status = .running → cellAt s.mem s.ip = some w →
    decode w = .ok i → step s = exec i s

/-- The fetch (70_reset_and_hazards.md section 2) faults outside memory, with no word in the report; inside,
the word read is the one decoded. That the fetch is where a bad `ip` is detected, and what a fault leaves, is
the spec's own choice (decisions D16, D8, D10). -/
def Obligations.FetchChecksThePointerThenReads : Prop :=
  ∀ s : State, s.status = .running →
    (s.mem.length ≤ s.ip →
      step s = .next { s with
        status := .faulted,
        fault := some { reason := .outOfBounds s.ip, ip := s.ip, word := none } }) ∧
    (s.ip < s.mem.length → ∃ w : Int, cellAt s.mem s.ip = some w ∧
      (∀ i, decode w = .ok i → step s = exec i s) ∧
      (∀ r, decode w = .error r → step s = .next { s with
        status := .faulted, fault := some { reason := r, ip := s.ip, word := some w } }))

/-- 60_exceptions.md R111: a negative word, or one whose opcode is none of the five, is InvalidOpcode before
any operand is read; memory and both queues are unchanged. -/
def Obligations.BadOpcodeFaultsBeforeOperands : Prop :=
  ∀ (s : State) (w : Int), s.status = .running → cellAt s.mem s.ip = some w →
    (w < 0 ∨ w % 100 ∉ ([1, 2, 3, 4, 99] : List Int)) →
    ∃ t, step s = .next t ∧ t.status = .faulted ∧ t.mem = s.mem ∧ t.inq = s.inq ∧ t.outq = s.outq ∧
      t.fault = some { reason := .invalidOpcode, ip := s.ip, word := some w }

/-- A valid opcode with a bad mode digit, or a nonzero digit above the modes, is InvalidMode before any
operand is read (60_exceptions.md section 1). That all three digits and the digits above are checked is the
spec's own choice (decisions D4, D5). -/
def Obligations.BadModeFaultsBeforeOperands : Prop :=
  ∀ (s : State) (w : Int), s.status = .running → cellAt s.mem s.ip = some w → 0 ≤ w →
    w % 100 ∈ ([1, 2, 3, 4, 99] : List Int) →
    (1 < w / 100 % 10 ∨ 1 < w / 1000 % 10 ∨ 1 < w / 10000 % 10 ∨ 100000 ≤ w) →
    ∃ (d : ModeDigit) (t : State), step s = .next t ∧ t.status = .faulted ∧ t.mem = s.mem ∧
      t.inq = s.inq ∧ t.outq = s.outq ∧
      t.fault = some { reason := .invalidMode d, ip := s.ip, word := some w }

/-- The step is total (70_reset_and_hazards.md section 2): a Running block always has a next state. -/
def Obligations.RunningBlockAlwaysSteps : Prop :=
  ∀ s : State, s.status = .running → ∃ t, step s = .next t

/-- 42_halt.md: Halted and Faulted are terminal, STEP is ignored, and a LOAD starts a new run. That a step which
does not exist is answered by a named stop is the model's own form (log entry 6). -/
def Obligations.StoppedBlockStaysStopped : Prop :=
  ∀ s : State,
    (s.status = .halted → step s = .fault .halted) ∧ (s.status = .faulted → step s = .fault .faulted) ∧
    (s.status ≠ .running → stepPort s = s ∧ ∀ k, run k s = s) ∧
    (∀ program input t, load program input s = .next t → t.status = .running ∧ t.mem = program)

/-! ## ADD and MUL -/

/-- 40_arithmetic.md section 2: ADD completes when both operands and the target are in bounds and the exact sum
fits; this is its whole effect, for every mode digit, the ignored one of the target included. -/
def Obligations.AddCompletes : Prop :=
  ∀ (s : State) (m1 m2 m3 : Mode) (a b : Int) (t : Nat),
    operandAt s 1 m1 = some a → operandAt s 2 m2 = some b →
    cellAt s.mem (s.ip + 3) = some (t : Int) → t < s.mem.length →
    inRange s.cfg.wordBits (a + b) = true →
    exec (.add m1 m2 m3) s = .next { s with mem := s.mem.set t (a + b), ip := s.ip + 4 }

/-- 40_arithmetic.md section 2: the same for MUL and the exact product. -/
def Obligations.MulCompletes : Prop :=
  ∀ (s : State) (m1 m2 m3 : Mode) (a b : Int) (t : Nat),
    operandAt s 1 m1 = some a → operandAt s 2 m2 = some b →
    cellAt s.mem (s.ip + 3) = some (t : Int) → t < s.mem.length →
    inRange s.cfg.wordBits (a * b) = true →
    exec (.mul m1 m2 m3) s = .next { s with mem := s.mem.set t (a * b), ip := s.ip + 4 }

/-- A result outside the `n`-bit range raises Overflow and writes nothing; with `WORD_BITS = INF` no ADD or MUL
overflows (40_arithmetic.md section 1). The spec's own choice (decisions D1, D2, D8). -/
def Obligations.OverflowFaultsAndWritesNothing : Prop :=
  (∀ (s : State) (m1 m2 m3 : Mode) (a b : Int) (t n : Nat), s.cfg.wordBits = .bits n →
    operandAt s 1 m1 = some a → operandAt s 2 m2 = some b →
    cellAt s.mem (s.ip + 3) = some (t : Int) → t < s.mem.length →
    ((a + b < -(2 ^ (n - 1) : Int) ∨ 2 ^ (n - 1) - 1 < a + b) →
      exec (.add m1 m2 m3) s = .next (faultedWith s .overflow)) ∧
    ((a * b < -(2 ^ (n - 1) : Int) ∨ 2 ^ (n - 1) - 1 < a * b) →
      exec (.mul m1 m2 m3) s = .next (faultedWith s .overflow))) ∧
  (∀ (s : State) (m1 m2 m3 : Mode), s.cfg.wordBits = .inf →
    exec (.add m1 m2 m3) s ≠ .next (faultedWith s .overflow) ∧
    exec (.mul m1 m2 m3) s ≠ .next (faultedWith s .overflow))

/-- The frame of ADD and MUL: every cell but the target, both queues, the length and the parameters are
unchanged; the status and the record are, unless the instruction faults. -/
def Obligations.ArithmeticFrame : Prop :=
  ∀ (s t : State) (m1 m2 m3 : Mode),
    (exec (.add m1 m2 m3) s = .next t ∨ exec (.mul m1 m2 m3) s = .next t) →
    t.cfg = s.cfg ∧ t.inq = s.inq ∧ t.outq = s.outq ∧ t.mem.length = s.mem.length ∧
    (t.status = .faulted ∨ (t.status = s.status ∧ t.fault = s.fault)) ∧
    ∀ a : Int, (∀ k : Nat, targetAt s 3 = some k → a ≠ k) → cellAt t.mem a = cellAt s.mem a

/-! ## IN and OUT -/

/-- 41_io.md: IN completes when its target is in bounds and an input value is left; this is its whole
effect. -/
def Obligations.InCompletes : Prop :=
  ∀ (s : State) (m1 m2 m3 : Mode) (v : Int) (rest : List Word) (t : Nat),
    cellAt s.mem (s.ip + 1) = some (t : Int) → t < s.mem.length → s.inq = v :: rest →
    exec (.inp m1 m2 m3) s =
      .next { s with mem := s.mem.set t v, inq := rest, ip := s.ip + 2 }

/-- 60_exceptions.md R117: an IN whose target is in bounds raises InputExhausted on an empty queue. -/
def Obligations.InOnEmptyQueueFaults : Prop :=
  ∀ (s : State) (m1 m2 m3 : Mode) (t : Nat),
    cellAt s.mem (s.ip + 1) = some (t : Int) → t < s.mem.length → s.inq = [] →
    ∃ u r, exec (.inp m1 m2 m3) s = .next u ∧ u.status = .faulted ∧ u.fault = some r ∧
      r.reason = .inputExhausted

/-- The order of IN's checks (41_io.md): a bad target is OutOfBounds whatever the queue holds, and consumes
no input. The order and the precise state are the spec's own choice (decisions D7, D8). -/
def Obligations.InChecksItsTargetFirst : Prop :=
  ∀ (s : State) (m1 m2 m3 : Mode) (p : Int),
    cellAt s.mem (s.ip + 1) = some p → (p < 0 ∨ (s.mem.length : Int) ≤ p) →
    exec (.inp m1 m2 m3) s = .next (faultedWith s (.outOfBounds p))

/-- The frame of IN: every cell but the target, the output queue, the length and the parameters are
unchanged; the status and the record are, unless the instruction faults. -/
def Obligations.InFrame : Prop :=
  ∀ (s t : State) (m1 m2 m3 : Mode), exec (.inp m1 m2 m3) s = .next t →
    t.cfg = s.cfg ∧ t.outq = s.outq ∧ t.mem.length = s.mem.length ∧
    (t.status = .faulted ∨ (t.status = s.status ∧ t.fault = s.fault)) ∧
    ∀ a : Int, (∀ k : Nat, targetAt s 1 = some k → a ≠ k) → cellAt t.mem a = cellAt s.mem a

/-- 41_io.md: OUT completes when its operand is in bounds; this is its whole effect. -/
def Obligations.OutCompletes : Prop :=
  ∀ (s : State) (m1 m2 m3 : Mode) (a : Int), operandAt s 1 m1 = some a →
    exec (.out m1 m2 m3) s = .next { s with outq := s.outq ++ [a], ip := s.ip + 2 }

/-- The frame of OUT: it writes no memory and consumes no input ("never stored back into Memory"). -/
def Obligations.OutFrame : Prop :=
  ∀ (s t : State) (m1 m2 m3 : Mode), exec (.out m1 m2 m3) s = .next t →
    t.cfg = s.cfg ∧ t.inq = s.inq ∧ t.mem.length = s.mem.length ∧
    (t.status = .faulted ∨ (t.status = s.status ∧ t.fault = s.fault)) ∧
    ∀ a : Int, cellAt t.mem a = cellAt s.mem a

/-- The boundary of 60_exceptions.md section 1, for a Position operand of OUT: the last cell is read, the
address `N` and every address outside memory fault. What the fault leaves is the spec's own choice (decision
D8). -/
def Obligations.LastCellIsReadAndTheNextFaults : Prop :=
  ∀ (s : State) (m2 m3 : Mode) (p : Int), cellAt s.mem (s.ip + 1) = some p →
    (p = (s.mem.length : Int) - 1 → ∃ v : Int, s.mem.getLast? = some v ∧
      exec (.out .position m2 m3) s = .next { s with outq := s.outq ++ [v], ip := s.ip + 2 }) ∧
    ((p < 0 ∨ (s.mem.length : Int) ≤ p) →
      exec (.out .position m2 m3) s = .next (faultedWith s (.outOfBounds p)))

/-! ## HLT -/

/-- 42_halt.md: HLT sets the status and changes nothing else, in every state. That `ip` stays is the spec's own
choice (decision D11). -/
def Obligations.HaltCompletes : Prop :=
  ∀ (s : State) (m1 m2 m3 : Mode), exec (.hlt m1 m2 m3) s = .next { s with status := .halted }

/-- 42_halt.md, "Reaching `Halt` is the only successful termination": a step that leaves the block
Halted ran a HLT word. -/
def Obligations.OnlyHaltWordsHalt : Prop :=
  ∀ s t : State, step s = .next t → t.status = .halted →
    ∃ (w : Int) (m1 m2 m3 : Mode), cellAt s.mem s.ip = some w ∧ decode w = .ok (.hlt m1 m2 m3) ∧
      t = { s with status := .halted }

/-! ## The instruction rules from the words on -/

/-- The mode a mode digit stands for. -/
def Sys2Proof.Machine.modeOfDigit (d : Int) : Mode := if d = 0 then .position else .immediate

/-- The rule of ADD and MUL from the word on: the eight words, the completed effect, and the exceptions in
the order checked. -/
def Sys2Proof.Machine.BinaryRule (words : List Int) (f : Int → Int → Int) : Prop :=
  ∀ (s : State) (w : Int), s.status = .running → cellAt s.mem s.ip = some w → w ∈ words →
    let m1 := modeOfDigit (w / 100 % 10)
    let m2 := modeOfDigit (w / 1000 % 10)
    (∀ (a b : Int) (t : Nat), operandAt s 1 m1 = some a → operandAt s 2 m2 = some b →
      cellAt s.mem (s.ip + 3) = some (t : Int) → t < s.mem.length →
      (inRange s.cfg.wordBits (f a b) = true →
        step s = .next { s with mem := s.mem.set t (f a b), ip := s.ip + 4 }) ∧
      (inRange s.cfg.wordBits (f a b) = false → StepFaults s .overflow)) ∧
    (cellAt s.mem (s.ip + 1) = none → StepFaults s (.outOfBounds (s.ip + 1))) ∧
    (∀ p : Int, cellAt s.mem (s.ip + 1) = some p → m1 = .position → cellAt s.mem p = none →
      StepFaults s (.outOfBounds p)) ∧
    (∀ a : Int, operandAt s 1 m1 = some a →
      (cellAt s.mem (s.ip + 2) = none → StepFaults s (.outOfBounds (s.ip + 2))) ∧
      (∀ p : Int, cellAt s.mem (s.ip + 2) = some p → m2 = .position → cellAt s.mem p = none →
        StepFaults s (.outOfBounds p)) ∧
      (∀ b : Int, operandAt s 2 m2 = some b →
        (cellAt s.mem (s.ip + 3) = none → StepFaults s (.outOfBounds (s.ip + 3))) ∧
        (∀ p : Int, cellAt s.mem (s.ip + 3) = some p → cellAt s.mem p = none →
          StepFaults s (.outOfBounds p))))

/-- 40_arithmetic.md R82, the whole rule. -/
def Obligations.AddWordsFollowTheirRule : Prop :=
  BinaryRule [1, 101, 1001, 1101, 10001, 10101, 11001, 11101] (fun a b => a + b)

/-- 40_arithmetic.md R83, the whole rule. -/
def Obligations.MulWordsFollowTheirRule : Prop :=
  BinaryRule [2, 102, 1002, 1102, 10002, 10102, 11002, 11102] (fun a b => a * b)

/-- 41_io.md R90, the whole rule: the eight words, the completed effect, and the exceptions in the order
checked; a faulting IN consumes no input. -/
def Obligations.InWordsFollowTheirRule : Prop :=
  ∀ (s : State) (w : Int), s.status = .running → cellAt s.mem s.ip = some w →
    w ∈ ([3, 103, 1003, 1103, 10003, 10103, 11003, 11103] : List Int) →
    (∀ t : Nat, cellAt s.mem (s.ip + 1) = some (t : Int) → t < s.mem.length →
      (∀ (v : Int) (rest : List Word), s.inq = v :: rest →
        step s = .next { s with mem := s.mem.set t v, inq := rest, ip := s.ip + 2 }) ∧
      (s.inq = [] → StepFaults s .inputExhausted)) ∧
    (cellAt s.mem (s.ip + 1) = none → StepFaults s (.outOfBounds (s.ip + 1))) ∧
    (∀ p : Int, cellAt s.mem (s.ip + 1) = some p → cellAt s.mem p = none →
      StepFaults s (.outOfBounds p)) ∧
    (∀ t : State, step s = .next t → t.status = .faulted → t.inq = s.inq)

/-- 41_io.md R91, the whole rule: the eight words, the completed effect (no memory is written), and the
exceptions in the order checked. -/
def Obligations.OutWordsFollowTheirRule : Prop :=
  ∀ (s : State) (w : Int), s.status = .running → cellAt s.mem s.ip = some w →
    w ∈ ([4, 104, 1004, 1104, 10004, 10104, 11004, 11104] : List Int) →
    let m1 := modeOfDigit (w / 100 % 10)
    (∀ a : Int, operandAt s 1 m1 = some a →
      step s = .next { s with outq := s.outq ++ [a], ip := s.ip + 2 }) ∧
    (cellAt s.mem (s.ip + 1) = none → StepFaults s (.outOfBounds (s.ip + 1))) ∧
    (∀ p : Int, cellAt s.mem (s.ip + 1) = some p → m1 = .position → cellAt s.mem p = none →
      StepFaults s (.outOfBounds p))

/-- 42_halt.md: a step on each of the eight HLT words halts, even in the last cell, and changes nothing else.
That `ip` stays is the spec's own choice (decision D11). -/
def Obligations.HaltWordsHalt : Prop :=
  ∀ (s : State) (w : Int), s.status = .running → cellAt s.mem s.ip = some w →
    w ∈ ([99, 199, 1099, 1199, 10099, 10199, 11099, 11199] : List Int) →
    step s = .next { s with status := .halted }

/-! ## Operand forms -/

/-- 30_encoding.md section 3: mode digits of write targets and of absent parameters have no effect. -/
def Obligations.UnconsultedModesHaveNoEffect : Prop :=
  ∀ (s : State) (m1 m2 m3 n1 n2 n3 : Mode),
    exec (.add m1 m2 m3) s = exec (.add m1 m2 n3) s ∧
    exec (.mul m1 m2 m3) s = exec (.mul m1 m2 n3) s ∧
    exec (.inp m1 m2 m3) s = exec (.inp n1 n2 n3) s ∧
    exec (.out m1 m2 m3) s = exec (.out m1 n2 n3) s ∧
    exec (.hlt m1 m2 m3) s = exec (.hlt n1 n2 n3) s

/-- 30_encoding.md R69: an Immediate operand is the parameter cell itself, so no other cell decides it; a
Position operand is the cell that the parameter addresses. -/
def Obligations.ImmediateReadsTheParameterAlone : Prop :=
  (∀ (s : State) (k : Nat) (m : Memory), cellAt m (s.ip + k) = cellAt s.mem (s.ip + k) →
    resolve k .immediate { s with mem := m } = resolve k .immediate s) ∧
  (∀ (s : State) (k : Nat) (p v : Int), cellAt s.mem (s.ip + k) = some p →
    resolve k .immediate s = .ok p ∧
    (cellAt s.mem p = some v → resolve k .position s = .ok v) ∧
    (cellAt s.mem p = none → resolve k .position s = .error (.outOfBounds p)))

/-! ## Faults -/

/-- A step reports the first condition of the priority list (60_exceptions.md section 2) that holds, and
completes when none does. The order is the spec's own choice (decisions D6, D7), the precise state too (D8). -/
def Obligations.FirstConditionOfTheListIsReported : Prop :=
  ∀ s : State, s.status = .running →
    match firstFault s with
    | some r => step s = .next (faultedWith s r)
    | none => ∃ t, step s = .next t ∧ t.status ≠ .faulted ∧ t.fault = s.fault

/-- A step that faults commits nothing; only the status and the record change (60_exceptions.md section 3). The
spec's own choice (decision D8). -/
def Obligations.FaultingStepCommitsNothing : Prop :=
  ∀ s t : State, step s = .next t → t.status = .faulted → ∃ r, t = faultedWith s r

/-- The report of a fault, as the FAULT port shows it (60_exceptions.md section 1). Its fields and numbers are
the spec's own choice (decisions D9, D10). -/
def Obligations.FaultReportFields : Prop :=
  ∀ s t : State, step s = .next t → t.status = .faulted →
    ∃ f : FaultFields, faultPort t = some f ∧ statusPort t = 2 ∧ f.ip = s.ip ∧
      f.word = cellAt s.mem s.ip ∧ 1 ≤ f.reason ∧ f.reason ≤ 5 ∧
      (f.addr.isSome = true ↔ f.reason = 3) ∧ (f.param.isSome = true ↔ f.reason = 2) ∧
      (∀ a : Int, f.addr = some a → a < 0 ∨ (s.mem.length : Int) ≤ a) ∧
      ∀ p : Nat, f.param = some p → 1 ≤ p ∧ p ≤ 4

/-! ## The whole machine -/

/-- 42_halt.md R101: `ip` advances by 4 for ADD and MUL and by 2 for IN and OUT, when they complete, and
stays otherwise. -/
def Obligations.PointerAdvancesByTheWidth : Prop :=
  ∀ s t : State, step s = .next t →
    (t.status = .running → ∃ (w : Int) (m1 m2 m3 : Mode), cellAt s.mem s.ip = some w ∧
      (((decode w = .ok (.add m1 m2 m3) ∨ decode w = .ok (.mul m1 m2 m3)) ∧ t.ip = s.ip + 4) ∨
        ((decode w = .ok (.inp m1 m2 m3) ∨ decode w = .ok (.out m1 m2 m3)) ∧ t.ip = s.ip + 2))) ∧
    (t.status ≠ .running → t.ip = s.ip)

/-- 10_state.md sections 1 and 3: the length of memory and the parameters never change during a run. -/
def Obligations.LengthAndParametersAreFixed : Prop :=
  ∀ s t : State, step s = .next t → t.mem.length = s.mem.length ∧ t.cfg = s.cfg

/-- 10_state.md sections 3 and 6: only ADD, MUL and IN write memory, only IN changes the input queue, only OUT
the output queue. -/
def Obligations.OnlyTheNamedInstructionsWrite : Prop :=
  ∀ s t : State, step s = .next t →
    (t.mem ≠ s.mem → ∃ i, fetchInstr s = .ok i ∧ opcode i ∈ [Opcode.add, .mul, .inp]) ∧
    (t.inq ≠ s.inq → ∃ i, fetchInstr s = .ok i ∧ opcode i = .inp) ∧
    (t.outq ≠ s.outq → ∃ i, fetchInstr s = .ok i ∧ opcode i = .out)

/-- 42_halt.md, which the spec derives: each step of a Running block ends the run or advances `ip` by at least 2, an
instruction executes only below `N`, and a run from `ip = 0` ends within `ceil(N/2) + 1` steps. -/
def Obligations.EveryRunEnds : Prop :=
  (∀ s t : State, step s = .next t →
    t.status ≠ .running ∨ (s.ip < s.mem.length ∧ s.ip + 2 ≤ t.ip)) ∧
  (∀ s : State, s.ip = 0 → ∃ k, k ≤ (s.mem.length + 1) / 2 + 1 ∧ (run k s).status ≠ .running) ∧
  (∀ s : State, (run ((s.mem.length - s.ip + 1) / 2 + 1) s).status ≠ .running)

/-- 41_io.md, which the spec derives: over any number of steps the output grows by exactly one value for each completed OUT, its
operand, in order, and the input shrinks from the front by one value for each completed IN. -/
def Obligations.StreamsAreTheCompletedInsAndOuts : Prop :=
  ∀ (k : Nat) (s : State),
    (run k s).outq = s.outq ++ (history k s).filterMap emittedValue ∧
    s.inq = (history k s).filterMap consumedValue ++ (run k s).inq ∧
    ((history k s).filterMap emittedValue).length =
      (history k s).countP (fun p => opcode p.2 == .out) ∧
    ((history k s).filterMap consumedValue).length =
      (history k s).countP (fun p => opcode p.2 == .inp)

/-- 20_memory.md R47: after any number of steps a cell holds what the most recent completed write to it wrote,
or its first value when no step has written it. -/
def Obligations.CellsHoldTheMostRecentWrite : Prop :=
  ∀ (k : Nat) (s : State) (a : Nat),
    cellAt (run k s).mem a = valueAfter (cellAt s.mem a) a ((history k s).filterMap storedCell)

/-- 20_memory.md section 4: a word written over the next instruction is the one the next step runs. -/
def Obligations.WrittenWordIsFetchedNext : Prop :=
  ∀ (s : State) (w a b : Int) (m1 m2 m3 : Mode) (j : Instr), s.status = .running →
    cellAt s.mem s.ip = some w → decode w = .ok (.add m1 m2 m3) →
    operandAt s 1 m1 = some a → operandAt s 2 m2 = some b →
    cellAt s.mem (s.ip + 3) = some ((s.ip + 4 : Nat) : Int) → s.ip + 4 < s.mem.length →
    inRange s.cfg.wordBits (a + b) = true → decode (a + b) = .ok j →
    ∃ t, step s = .next t ∧ t.ip = s.ip + 4 ∧ cellAt t.mem t.ip = some (a + b) ∧ step t = exec j t

/-- 10_state.md section 6: the output queue is never read; a step does the same whatever was emitted before. -/
def Obligations.OutputIsNeverReadBack : Prop :=
  ∀ (s : State) (before : List Word),
    step { s with outq := before ++ s.outq } =
      match step s with
      | .next t => .next { t with outq := before ++ t.outq }
      | .fault f => .fault f
      | .refused r => .refused r

/-- 10_state.md section 5: the fault record is invisible to programs; a step of a Running block does the same
whatever the record holds. -/
def Obligations.FaultRecordIsNeverRead : Prop :=
  ∀ (s t : State) (f : Option FaultReport), s.status = .running → step s = .next t →
    step { s with fault := f } =
      .next (if t.status = .faulted then t else { t with fault := f })

/-- 10_state.md section 8 and 70_reset_and_hazards.md section 2: the run of a program ends with a result. When
it is safe that is the final memory and output, cell by cell. Otherwise it is the report of a fault together with
the precise state: the state `u` that the last completed instruction left, Running, with only the status and the
record changed. That the state is precise is the spec's own choice (decision D8). -/
def Obligations.EveryRunDeliversAResult : Prop :=
  ∀ s : State, s.status = .running → s.ip = 0 →
    (RunsSafely s ∧ runResult (runToEnd s) = .completed (runToEnd s).mem (runToEnd s).outq ∧
      ∀ a, resultCell (runResult (runToEnd s)) a = memPort (runToEnd s) a) ∨
    (¬ RunsSafely s ∧ ∃ (f : FaultFields) (k : Nat) (u : State) (r : FaultReason),
      runResult (runToEnd s) = .faulted (some f) (faultedWith u r) ∧ run k s = u ∧ u.status = .running ∧
      f.reason = faultCode r ∧ f.ip = u.ip ∧ f.word = cellAt u.mem u.ip ∧ f.addr = faultAddr r ∧
      f.param = faultParam r ∧ ∀ a, resultCell (runResult (runToEnd s)) a = none)

/-! ## The model's own operations -/

/-- What `withFetchWord` is for (log entry 5): the next step runs the placed word's instruction. -/
def Obligations.PlacedWordRunsNext : Prop :=
  ∀ (s : State) (nbits : Nat) (i : Instr),
    step (s.withFetchWord nbits (encode i).toNat) = exec i (s.withFetchWord nbits (encode i).toNat)

/-- 30_encoding.md R76, assembly and then disassembly: an assembled statement disassembles to itself, with its
text, and the cells after it are left. -/
def Obligations.AssembledStatementsDisassemble : Prop :=
  ∀ (st : Statement Int) (rest : List Word), (∀ vs, st ≠ .word vs) →
    disassemble (assemble st ++ rest) = some { statement := st, absent := absentZero, rest := rest }

/-- 30_encoding.md R76, disassembly and then assembly, for every list of cells and all 40 valid words: the
statement and the absent mode digits that disassembly keeps (log entry 8) assemble to the same cells; where
those digits are 0 the statement alone does (R75). -/
def Obligations.DisassembledCellsAssemble : Prop :=
  ∀ (cells : List Word) (d : Disassembly), disassemble cells = some d →
    assembleWith d.absent d.statement ++ d.rest = cells ∧
    (d.absent = absentZero → assemble d.statement ++ d.rest = cells)

/-- 30_encoding.md R76: a valid word with its parameter cells disassembles to the mnemonic of its opcode, and a
word that is not valid only to `.word`. -/
def Obligations.ValidWordsDisassembleToTheirMnemonic : Prop :=
  (∀ (w : Int) (i : Instr) (cells : List Word), decode w = .ok i → width (opcode i) ≤ cells.length + 1 →
    ∃ d, disassemble (w :: cells) = some d ∧ statementOpcode d.statement = some (opcode i) ∧
      d.rest = cells.drop (width (opcode i) - 1)) ∧
  (∀ (w : Int) (r : FaultReason) (cells : List Word), decode w = .error r →
    disassemble (w :: cells) = some { statement := .word [w], absent := absentZero, rest := cells })
end

