-- ==== Sys2Proof/Laws/Decode.lean ====
section
/-! SUPPORT. The fields of a word: digits, modes and opcodes. -/

namespace Sys2Proof

@[simp] theorem modeOf_modeDigit (m : Mode) : modeOf (modeDigit m) = some m := by cases m <;> rfl

@[simp] theorem opcodeOf_opcodeNumber (op : Opcode) : opcodeOf (opcodeNumber op) = some op := by
  cases op <;> rfl

@[simp] theorem opcode_instrOf (op : Opcode) (m1 m2 m3 : Mode) :
    opcode (instrOf op m1 m2 m3) = op := by
  cases op <;> rfl

/-- A digit that is a mode is that mode's digit. -/
theorem modeOf_eq_some {d : Nat} {m : Mode} : modeOf d = some m ↔ d = modeDigit m := by
  constructor
  · intro h
    unfold modeOf at h
    split at h <;> first | (injection h with h; subst h; rfl) | cases h
  · rintro rfl
    exact modeOf_modeDigit m

/-- The digits that are no mode. -/
theorem modeOf_eq_none {d : Nat} : modeOf d = none ↔ 1 < d := by
  unfold modeOf
  split <;> simp_all
  omega

/-- A number that is an opcode is that opcode's number. -/
theorem opcodeOf_eq_some {n : Nat} {op : Opcode} : opcodeOf n = some op ↔ n = opcodeNumber op := by
  constructor
  · intro h
    unfold opcodeOf at h
    split at h <;> first | (injection h with h; subst h; rfl) | cases h
  · rintro rfl
    exact opcodeOf_opcodeNumber op

/-- The numbers that are no opcode. -/
theorem opcodeOf_eq_none {n : Nat} :
    opcodeOf n = none ↔ n ≠ 1 ∧ n ≠ 2 ∧ n ≠ 3 ∧ n ≠ 4 ∧ n ≠ 99 := by
  unfold opcodeOf
  split <;> simp_all

theorem modeField_ok {k : Nat} {d : ModeDigit} {n : Nat} {m : Mode} :
    modeField k d n = .ok m ↔ n / 10 ^ (k + 1) % 10 = modeDigit m := by
  rw [← modeOf_eq_some]
  unfold modeField digit
  cases modeOf (n / 10 ^ (k + 1) % 10) <;> simp

theorem modeField_error {k : Nat} {d : ModeDigit} {n : Nat} {r : FaultReason} :
    modeField k d n = .error r ↔ 1 < n / 10 ^ (k + 1) % 10 ∧ r = .invalidMode d := by
  rw [← modeOf_eq_none]
  unfold modeField digit
  cases modeOf (n / 10 ^ (k + 1) % 10) <;> simp [eq_comm]

theorem modeDigit_le (m : Mode) : modeDigit m ≤ 1 := by cases m <;> decide

theorem opcodeNumber_lt (op : Opcode) : opcodeNumber op < 100 := by cases op <;> decide

/-- Every instruction is its opcode applied to three modes. -/
theorem exists_instrOf (i : Instr) : ∃ op m1 m2 m3, i = instrOf op m1 m2 m3 := by
  cases i with
  | add m1 m2 m3 => exact ⟨.add, m1, m2, m3, rfl⟩
  | mul m1 m2 m3 => exact ⟨.mul, m1, m2, m3, rfl⟩
  | inp m1 m2 m3 => exact ⟨.inp, m1, m2, m3, rfl⟩
  | out m1 m2 m3 => exact ⟨.out, m1, m2, m3, rfl⟩
  | hlt m1 m2 m3 => exact ⟨.hlt, m1, m2, m3, rfl⟩

@[simp] theorem encode_instrOf (op : Opcode) (m1 m2 m3 : Mode) :
    encode (instrOf op m1 m2 m3) = wordOf op m1 m2 m3 := by
  cases op <;> rfl

/-- What a successful decode has checked, digit by digit (30_encoding.md R65). -/
theorem decodeModes_ok {op : Opcode} {n : Nat} {i : Instr} :
    decodeModes op n = .ok i ↔
      ∃ m1 m2 m3, n / 100 % 10 = modeDigit m1 ∧ n / 1000 % 10 = modeDigit m2 ∧
        n / 10000 % 10 = modeDigit m3 ∧ n < 100000 ∧ i = instrOf op m1 m2 m3 := by
  unfold decodeModes
  cases h1 : modeField 1 .param1 n with
  | error r =>
    have := (modeField_error.1 h1).1
    simp only [bind, Except.bind, reduceCtorEq, false_iff]
    rintro ⟨m1, m2, m3, e, -⟩
    have := modeDigit_le m1
    simp at *
    omega
  | ok m1 =>
    cases h2 : modeField 2 .param2 n with
    | error r =>
      have := (modeField_error.1 h2).1
      simp only [bind, Except.bind, reduceCtorEq, false_iff]
      rintro ⟨_, m2, m3, -, e, -⟩
      have := modeDigit_le m2
      simp at *
      omega
    | ok m2 =>
      cases h3 : modeField 3 .param3 n with
      | error r =>
        have := (modeField_error.1 h3).1
        simp only [bind, Except.bind, reduceCtorEq, false_iff]
        rintro ⟨_, _, m3, -, -, e, -⟩
        have := modeDigit_le m3
        simp at *
        omega
      | ok m3 =>
        have e1 := modeField_ok.1 h1
        have e2 := modeField_ok.1 h2
        have e3 := modeField_ok.1 h3
        simp only [bind, Except.bind]
        by_cases hn : n / 100000 = 0
        · have hlt : n < 100000 := by omega
          simp only [hn, ne_eq, not_true_eq_false, if_false, Except.ok.injEq]
          constructor
          · rintro rfl
            exact ⟨m1, m2, m3, by simpa using e1, by simpa using e2, by simpa using e3, hlt, rfl⟩
          · rintro ⟨x1, x2, x3, f1, f2, f3, -, rfl⟩
            simp only [Nat.reduceAdd, Nat.reducePow] at e1 e2 e3
            have g1 := modeOf_modeDigit m1
            have g2 := modeOf_modeDigit m2
            have g3 := modeOf_modeDigit m3
            rw [← e1, f1, modeOf_modeDigit] at g1
            rw [← e2, f2, modeOf_modeDigit] at g2
            rw [← e3, f3, modeOf_modeDigit] at g3
            simp_all
        · simp only [hn, ne_eq, not_false_eq_true, if_true, reduceCtorEq, false_iff]
          rintro ⟨_, _, _, -, -, -, hlt, -⟩
          omega

/-- Inversion of `decode`: the word is not negative, its low digits are an opcode and its modes decode. -/
theorem decode_ok {w : Int} {i : Instr} :
    decode w = .ok i ↔
      0 ≤ w ∧ ∃ op, w.toNat % 100 = opcodeNumber op ∧ decodeModes op w.toNat = .ok i := by
  unfold decode
  split
  · simp; omega
  · cases h : opcodeOf (w.toNat % 100) with
    | none =>
      simp only [reduceCtorEq, false_iff]
      rintro ⟨_, op, h', _⟩
      rw [h', opcodeOf_opcodeNumber] at h
      cases h
    | some op =>
      constructor
      · exact fun h' => ⟨by omega, op, opcodeOf_eq_some.1 h, h'⟩
      · rintro ⟨_, op', h1, h2⟩
        rw [h1, opcodeOf_opcodeNumber] at h
        injection h with h
        exact h ▸ h2

end Sys2Proof
end

