-- ==== Sys2Proof/Laws/Memory.lean ====
section
/-! SUPPORT. Memory: which addresses are valid, what a write leaves alone, and that the well-formedness is
kept. -/

namespace Sys2Proof.Machine

/-- A natural address is read as the list's element. -/
@[simp] theorem cellAt_natCast (m : Memory) (a : Nat) : cellAt m (a : Int) = m[a]? := by
  simp [cellAt]

theorem validAddr_iff {m : Memory} {a : Int} :
    validAddr m a = true ↔ 0 ≤ a ∧ a < m.length := by
  simp [validAddr]

/-- Valid addresses and no others hold a cell (20_memory.md R41). -/
theorem cellAt_isSome_iff {m : Memory} {a : Int} :
    (cellAt m a).isSome = true ↔ 0 ≤ a ∧ a < m.length := by
  unfold cellAt
  split
  · simp; omega
  · simp; omega

theorem cellAt_eq_none_iff {m : Memory} {a : Int} :
    cellAt m a = none ↔ a < 0 ∨ (m.length : Int) ≤ a := by
  rw [← Option.not_isSome_iff_eq_none, cellAt_isSome_iff]
  omega

theorem cellAt_bounds {m : Memory} {a : Int} {v : Word} (h : cellAt m a = some v) :
    0 ≤ a ∧ a < m.length :=
  cellAt_isSome_iff.1 (by simp [h])

theorem memRead_ok {m : Memory} {a : Int} {v : Word} :
    memRead m a = .ok v ↔ cellAt m a = some v := by
  unfold memRead
  cases cellAt m a <;> simp

theorem memRead_error {m : Memory} {a : Int} {r : FaultReason} :
    memRead m a = .error r ↔ cellAt m a = none ∧ r = .outOfBounds a := by
  unfold memRead
  cases cellAt m a <;> simp [eq_comm]

/-- A read after a write to the same cell gives the value written. -/
theorem cellAt_set_self {m : Memory} {t : Nat} {v : Word} (h : t < m.length) :
    cellAt (m.set t v) t = some v := by
  simp [h]

/-- A write leaves every other address alone, valid or not. -/
theorem cellAt_set_of_ne {m : Memory} {t : Nat} {v : Word} {a : Int} (h : a ≠ t) :
    cellAt (m.set t v) a = cellAt m a := by
  unfold cellAt
  split
  · rfl
  · have : t ≠ a.toNat := by omega
    simp [List.getElem?_set_ne this]

/-- Each cell of a well-formed memory holds a `Word`. -/
theorem Memory.wf_cell {b : WordBits} {m : Memory} (h : m.wf b = true) {a : Int} {v : Word}
    (hv : cellAt m a = some v) : inRange b v = true := by
  unfold cellAt at hv
  split at hv
  · cases hv
  · simp only [Memory.wf, Bool.and_eq_true, List.all_eq_true] at h
    exact h.1 v (List.mem_of_getElem? hv)

/-- Writing a `Word` keeps a memory well formed. -/
theorem Memory.wf_set {b : WordBits} {m : Memory} (h : m.wf b = true) (t : Nat) {v : Word}
    (hv : inRange b v = true) : Memory.wf b (m.set t v) = true := by
  simp only [Memory.wf, Bool.and_eq_true, List.all_eq_true, List.length_set] at h ⊢
  refine ⟨fun x hx => ?_, h.2⟩
  rcases List.mem_or_eq_of_mem_set hx with hx | rfl
  · exact h.1 x hx
  · exact hv

/-- The named write keeps the memory well formed. -/
theorem writeCell_wf {s : State} (h : s.mem.wf s.cfg.wordBits = true) (t : Nat) {v : Word}
    (hv : inRange s.cfg.wordBits v = true) :
    (writeCell t v s).mem.wf (writeCell t v s).cfg.wordBits = true :=
  Memory.wf_set h t hv

theorem reset_mem_wf : State.reset.mem.wf State.reset.cfg.wordBits = true := by decide

/-- A placed word and its three zero cells fit in the memory it makes. -/
theorem placeWord_length (m : Memory) (a : Nat) (w : Word) :
    (placeWord m a w).length = max m.length (a + 4) := by
  simp [placeWord]; omega

/-- A placed word is what the fetch at its address reads. -/
theorem cellAt_placeWord (m : Memory) (a : Nat) (w : Word) :
    cellAt (placeWord m a w) a = some w := by
  have h : a < m.length + (a + 4 - m.length) := by omega
  simp [placeWord, h]

/-- The range of a finite width, said with the two bounds (00_scope.md R6). -/
theorem inRange_bits {n : Nat} {v : Int} :
    inRange (.bits n) v = true ↔ -(2 ^ (n - 1) : Int) ≤ v ∧ v ≤ 2 ^ (n - 1) - 1 := by
  simp [inRange]

@[simp] theorem inRange_inf (v : Int) : inRange .inf v = true := rfl

theorem checkResult_ok {s : State} {r v : Int} :
    checkResult s r = .ok v ↔ inRange s.cfg.wordBits r = true ∧ v = r := by
  unfold checkResult
  cases inRange s.cfg.wordBits r <;> simp [eq_comm]

theorem checkResult_error {s : State} {r : Int} {e : FaultReason} :
    checkResult s r = .error e ↔ inRange s.cfg.wordBits r = false ∧ e = .overflow := by
  unfold checkResult
  cases inRange s.cfg.wordBits r <;> simp [eq_comm]

end Sys2Proof.Machine
end

