-- ==== Sys2Proof/Laws/Operands.lean ====
section
/-! SUPPORT. The operand forms: when each succeeds and with what, and when each raises and what. -/

namespace Sys2Proof.Machine

/-- Peels one step off a computation that succeeds. -/
theorem bind_ok {α β : Type} {x : Except FaultReason α} {f : α → Except FaultReason β} {b : β} :
    (x >>= f) = .ok b ↔ ∃ a, x = .ok a ∧ f a = .ok b := by
  cases x <;> simp [bind, Except.bind]

/-- A computation raises where its first step does, or after it. -/
theorem bind_error {α β : Type} {x : Except FaultReason α} {f : α → Except FaultReason β}
    {r : FaultReason} :
    (x >>= f) = .error r ↔ x = .error r ∨ ∃ a, x = .ok a ∧ f a = .error r := by
  cases x <;> simp [bind, Except.bind]

/-- The resolver gives the operand that `operandAt` describes, and nothing else. -/
theorem resolve_ok {k : Nat} {m : Mode} {s : State} {a : Word} :
    resolve k m s = .ok a ↔ operandAt s k m = some a := by
  simp only [resolve, param, bind_ok, memRead_ok, operandAt]
  cases m with
  | immediate => simp
  | position => simp [memRead_ok, Option.bind_eq_some_iff]

/-- The resolver raises OutOfBounds of the parameter cell, or of the address in it. -/
theorem resolve_error {k : Nat} {m : Mode} {s : State} {r : FaultReason} :
    resolve k m s = .error r ↔
      (cellAt s.mem (s.ip + k) = none ∧ r = .outOfBounds (s.ip + k)) ∨
        ∃ p : Int, cellAt s.mem (s.ip + k) = some p ∧ m = .position ∧ cellAt s.mem p = none ∧
          r = .outOfBounds p := by
  simp only [resolve, param, bind_error, memRead_ok, memRead_error]
  cases m <;> simp [memRead_error]

/-- The target is the address that `targetAt` describes. -/
theorem target_ok {k : Nat} {s : State} {t : Nat} :
    target k s = .ok t ↔ targetAt s k = some t := by
  simp only [target, param, bind_ok, memRead_ok, targetAt, Option.bind_eq_some_iff]
  refine exists_congr fun p => and_congr_right fun _ => ?_
  by_cases h : validAddr s.mem p = true
  · simp [h, validAddr_iff.1 h]
  · rw [if_neg h, if_neg (fun h' => h (validAddr_iff.2 h'))]
    simp

/-- A target is a valid address and is the raw value of its parameter cell. -/
theorem targetAt_eq_some {k : Nat} {s : State} {t : Nat} :
    targetAt s k = some t ↔ cellAt s.mem (s.ip + k) = some (t : Int) ∧ t < s.mem.length := by
  simp only [targetAt, Option.bind_eq_some_iff]
  constructor
  · rintro ⟨(p : Int), hp, h⟩
    split at h
    · rename_i hb
      injection h with h
      have hp' : p = (t : Int) := by omega
      exact ⟨hp' ▸ hp, by omega⟩
    · cases h
  · rintro ⟨h, hlt⟩
    exact ⟨t, h, by simp [hlt]⟩

/-- The target raises OutOfBounds of the parameter cell, or of the address in it. -/
theorem target_error {k : Nat} {s : State} {r : FaultReason} :
    target k s = .error r ↔
      (cellAt s.mem (s.ip + k) = none ∧ r = .outOfBounds (s.ip + k)) ∨
        ∃ p : Int, cellAt s.mem (s.ip + k) = some p ∧ cellAt s.mem p = none ∧ r = .outOfBounds p := by
  simp only [target, param, bind_error, memRead_ok, memRead_error]
  refine or_congr Iff.rfl (exists_congr fun (p : Int) => and_congr_right fun _ => ?_)
  by_cases h : validAddr s.mem p = true
  · have h' := validAddr_iff.1 h
    have : cellAt s.mem p ≠ none := by rw [Ne, cellAt_eq_none_iff]; omega
    simp [h, this]
  · have h' := fun h' => h (validAddr_iff.2 h')
    have : cellAt s.mem p = none := by
      rw [cellAt_eq_none_iff]
      by_contra hc
      exact h' (by omega)
    simp [h, this, eq_comm]

/-- A resolved operand is the content of some cell. -/
theorem operandAt_cell {s : State} {k : Nat} {m : Mode} {a : Word} (h : operandAt s k m = some a) :
    ∃ c, cellAt s.mem c = some a := by
  cases m with
  | immediate => exact ⟨_, h⟩
  | position =>
    obtain ⟨p, _, hp⟩ := Option.bind_eq_some_iff.1 h
    exact ⟨p, hp⟩

end Sys2Proof.Machine
end

