-- ==== Sys2Proof/Laws/State.lean ====
section
/-! SUPPORT. One lemma per field per update of the state. -/

namespace Sys2Proof.Machine

variable (s : State)

/-! `writeCell` -/

@[simp] theorem writeCell_cfg (t : Nat) (v : Word) : (writeCell t v s).cfg = s.cfg := rfl
@[simp] theorem writeCell_mem (t : Nat) (v : Word) : (writeCell t v s).mem = s.mem.set t v := rfl
@[simp] theorem writeCell_ip (t : Nat) (v : Word) : (writeCell t v s).ip = s.ip := rfl
@[simp] theorem writeCell_status (t : Nat) (v : Word) : (writeCell t v s).status = s.status := rfl
@[simp] theorem writeCell_fault (t : Nat) (v : Word) : (writeCell t v s).fault = s.fault := rfl
@[simp] theorem writeCell_inq (t : Nat) (v : Word) : (writeCell t v s).inq = s.inq := rfl
@[simp] theorem writeCell_outq (t : Nat) (v : Word) : (writeCell t v s).outq = s.outq := rfl

/-! `emit` -/

@[simp] theorem emit_cfg (v : Word) : (emit v s).cfg = s.cfg := rfl
@[simp] theorem emit_mem (v : Word) : (emit v s).mem = s.mem := rfl
@[simp] theorem emit_ip (v : Word) : (emit v s).ip = s.ip := rfl
@[simp] theorem emit_status (v : Word) : (emit v s).status = s.status := rfl
@[simp] theorem emit_fault (v : Word) : (emit v s).fault = s.fault := rfl
@[simp] theorem emit_inq (v : Word) : (emit v s).inq = s.inq := rfl
@[simp] theorem emit_outq (v : Word) : (emit v s).outq = s.outq ++ [v] := rfl

/-! `advance` -/

@[simp] theorem advance_cfg (op : Opcode) : (advance op s).cfg = s.cfg := rfl
@[simp] theorem advance_mem (op : Opcode) : (advance op s).mem = s.mem := rfl
@[simp] theorem advance_ip (op : Opcode) : (advance op s).ip = s.ip + width op := rfl
@[simp] theorem advance_status (op : Opcode) : (advance op s).status = s.status := rfl
@[simp] theorem advance_fault (op : Opcode) : (advance op s).fault = s.fault := rfl
@[simp] theorem advance_inq (op : Opcode) : (advance op s).inq = s.inq := rfl
@[simp] theorem advance_outq (op : Opcode) : (advance op s).outq = s.outq := rfl

/-! `setHalted` -/

@[simp] theorem setHalted_cfg : (setHalted s).cfg = s.cfg := rfl
@[simp] theorem setHalted_mem : (setHalted s).mem = s.mem := rfl
@[simp] theorem setHalted_ip : (setHalted s).ip = s.ip := rfl
@[simp] theorem setHalted_status : (setHalted s).status = .halted := rfl
@[simp] theorem setHalted_fault : (setHalted s).fault = s.fault := rfl
@[simp] theorem setHalted_inq : (setHalted s).inq = s.inq := rfl
@[simp] theorem setHalted_outq : (setHalted s).outq = s.outq := rfl

/-! `takeFault` -/

@[simp] theorem takeFault_cfg (r : FaultReason) : (takeFault r s).cfg = s.cfg := rfl
@[simp] theorem takeFault_mem (r : FaultReason) : (takeFault r s).mem = s.mem := rfl
@[simp] theorem takeFault_ip (r : FaultReason) : (takeFault r s).ip = s.ip := rfl
@[simp] theorem takeFault_status (r : FaultReason) : (takeFault r s).status = .faulted := rfl
@[simp] theorem takeFault_fault (r : FaultReason) : (takeFault r s).fault =
    some { reason := r, ip := s.ip, word := s.mem[s.ip]? } := rfl
@[simp] theorem takeFault_inq (r : FaultReason) : (takeFault r s).inq = s.inq := rfl
@[simp] theorem takeFault_outq (r : FaultReason) : (takeFault r s).outq = s.outq := rfl

/-! `placeInstr` -/

@[simp] theorem placeInstr_cfg (w : Word) : (placeInstr s w).cfg = s.cfg := rfl
@[simp] theorem placeInstr_mem (w : Word) : (placeInstr s w).mem = placeWord s.mem s.ip w := rfl
@[simp] theorem placeInstr_ip (w : Word) : (placeInstr s w).ip = s.ip := rfl
@[simp] theorem placeInstr_status (w : Word) : (placeInstr s w).status = .running := rfl
@[simp] theorem placeInstr_fault (w : Word) : (placeInstr s w).fault = none := rfl
@[simp] theorem placeInstr_inq (w : Word) : (placeInstr s w).inq = s.inq := rfl
@[simp] theorem placeInstr_outq (w : Word) : (placeInstr s w).outq = s.outq := rfl

/-! `finish` -/

@[simp] theorem finish_ok (t : State) : finish s (.ok t) = .next t := rfl
@[simp] theorem finish_error (r : FaultReason) : finish s (.error r) = .next (takeFault r s) := rfl

/-- Everything an instruction's end can be: its commit, or the fault taken in the state before it. -/
theorem finish_cases (body : Except FaultReason State) :
    (∃ t, body = .ok t ∧ finish s body = .next t) ∨
      (∃ r, body = .error r ∧ finish s body = .next (takeFault r s)) := by
  cases body with
  | ok t => exact .inl ⟨t, rfl, rfl⟩
  | error r => exact .inr ⟨r, rfl, rfl⟩

/-- Taking an input value: there is one, and it leaves the queue. -/
theorem takeInput_ok {s : State} {v : Word} {t : State} :
    takeInput s = .ok (v, t) ↔ s.inq = v :: t.inq ∧ t = { s with inq := t.inq } := by
  unfold takeInput
  cases h : s.inq with
  | nil => simp
  | cons x rest =>
    constructor
    · intro e
      injection e with e
      injection e with e1 e2
      subst e1 e2
      exact ⟨rfl, rfl⟩
    · rintro ⟨e, ht⟩
      injection e with e1 e2
      rw [ht, e1, ← e2]

/-- Taking an input value fails only on an empty queue. -/
theorem takeInput_error {r : FaultReason} :
    takeInput s = .error r ↔ s.inq = [] ∧ r = .inputExhausted := by
  unfold takeInput
  cases s.inq <;> simp [eq_comm]

end Sys2Proof.Machine
end

