-- ==== Sys2Proof/Laws/Exec.lean ====
section
/-! SUPPORT. What each meaning can do, said once: its commit with the operands it read, or a fault taken in
the state before it. -/

namespace Sys2Proof.Machine

variable {s t : State} {i : Instr} {r : FaultReason}

/-- The commit of ADD and MUL, and when it happens. -/
theorem binaryBody_ok {op : Opcode} {f : Int → Int → Int} {m1 m2 : Mode} :
    binaryBody op f m1 m2 s = .ok t ↔
      ∃ (a b : Int) (k : Nat), operandAt s 1 m1 = some a ∧ operandAt s 2 m2 = some b ∧
        targetAt s 3 = some k ∧ inRange s.cfg.wordBits (f a b) = true ∧
        t = advance op (writeCell k (f a b) s) := by
  simp only [binaryBody, bind_ok, resolve_ok, target_ok, checkResult_ok, Except.ok.injEq]
  constructor
  · rintro ⟨a, ha, b, hb, k, hk, _, ⟨hr, rfl⟩, rfl⟩
    exact ⟨a, b, k, ha, hb, hk, hr, rfl⟩
  · rintro ⟨a, b, k, ha, hb, hk, hr, rfl⟩
    exact ⟨a, ha, b, hb, k, hk, f a b, ⟨hr, rfl⟩, rfl⟩

/-- The commit of IN, and when it happens. -/
theorem inputBody_ok :
    inputBody s = .ok t ↔
      ∃ (k : Nat) (v : Int) (rest : List Word), targetAt s 1 = some k ∧ s.inq = v :: rest ∧
        t = advance .inp (writeCell k v { s with inq := rest }) := by
  simp only [inputBody, bind_ok, target_ok, Except.ok.injEq]
  constructor
  · rintro ⟨k, hk, ⟨v, s'⟩, h, rfl⟩
    obtain ⟨hq, hs⟩ := takeInput_ok.1 h
    exact ⟨k, v, s'.inq, hk, hq, by rw [hs]⟩
  · rintro ⟨k, v, rest, hk, hq, rfl⟩
    exact ⟨k, hk, (v, { s with inq := rest }), takeInput_ok.2 ⟨hq, rfl⟩, rfl⟩

/-- The commit of OUT, and when it happens. -/
theorem outputBody_ok {m1 : Mode} :
    outputBody m1 s = .ok t ↔
      ∃ a : Int, operandAt s 1 m1 = some a ∧ t = advance .out (emit a s) := by
  simp only [outputBody, bind_ok, resolve_ok, Except.ok.injEq]
  exact exists_congr fun a => and_congr_right fun _ => eq_comm

/-- The completed effect of an instruction. -/
def Completes (i : Instr) (s t : State) : Prop :=
  match i with
  | .add m1 m2 _ =>
    ∃ (a b : Int) (k : Nat), operandAt s 1 m1 = some a ∧ operandAt s 2 m2 = some b ∧
      targetAt s 3 = some k ∧ inRange s.cfg.wordBits (a + b) = true ∧
      t = advance .add (writeCell k (a + b) s)
  | .mul m1 m2 _ =>
    ∃ (a b : Int) (k : Nat), operandAt s 1 m1 = some a ∧ operandAt s 2 m2 = some b ∧
      targetAt s 3 = some k ∧ inRange s.cfg.wordBits (a * b) = true ∧
      t = advance .mul (writeCell k (a * b) s)
  | .inp _ _ _ =>
    ∃ (k : Nat) (v : Int) (rest : List Word), targetAt s 1 = some k ∧ s.inq = v :: rest ∧
      t = advance .inp (writeCell k v { s with inq := rest })
  | .out m1 _ _ => ∃ a : Int, operandAt s 1 m1 = some a ∧ t = advance .out (emit a s)
  | .hlt _ _ _ => t = setHalted s

/-- Everything `exec` can answer: always a next state, the completed effect or a fault taken. -/
theorem exec_cases (i : Instr) (s : State) :
    (∃ t, exec i s = .next t ∧ Completes i s t) ∨ ∃ r, exec i s = .next (takeFault r s) := by
  cases i with
  | add m1 m2 m3 =>
    rcases finish_cases s (binaryBody .add (fun a b => a + b) m1 m2 s) with ⟨t, h, e⟩ | ⟨r, _, e⟩
    · exact .inl ⟨t, e, binaryBody_ok.1 h⟩
    · exact .inr ⟨r, e⟩
  | mul m1 m2 m3 =>
    rcases finish_cases s (binaryBody .mul (fun a b => a * b) m1 m2 s) with ⟨t, h, e⟩ | ⟨r, _, e⟩
    · exact .inl ⟨t, e, binaryBody_ok.1 h⟩
    · exact .inr ⟨r, e⟩
  | inp m1 m2 m3 =>
    rcases finish_cases s (inputBody s) with ⟨t, h, e⟩ | ⟨r, _, e⟩
    · exact .inl ⟨t, e, inputBody_ok.1 h⟩
    · exact .inr ⟨r, e⟩
  | out m1 m2 m3 =>
    rcases finish_cases s (outputBody m1 s) with ⟨t, h, e⟩ | ⟨r, _, e⟩
    · exact .inl ⟨t, e, outputBody_ok.1 h⟩
    · exact .inr ⟨r, e⟩
  | hlt m1 m2 m3 => exact .inl ⟨_, rfl, rfl⟩

/-- An effect that is described is the effect that happens. -/
theorem exec_of_completes (h : Completes i s t) : exec i s = .next t := by
  cases i with
  | add m1 m2 m3 => exact congrArg (finish s) (binaryBody_ok.2 h)
  | mul m1 m2 m3 => exact congrArg (finish s) (binaryBody_ok.2 h)
  | inp m1 m2 m3 => exact congrArg (finish s) (inputBody_ok.2 h)
  | out m1 m2 m3 => exact congrArg (finish s) (outputBody_ok.2 h)
  | hlt m1 m2 m3 => rw [show t = setHalted s from h]; rfl

/-- Inversion of `exec`. -/
theorem exec_next (h : exec i s = .next t) : Completes i s t ∨ ∃ r, t = takeFault r s := by
  rcases exec_cases i s with ⟨t', e, hc⟩ | ⟨r, e⟩
  · rw [e] at h
    injection h with h
    exact .inl (h ▸ hc)
  · rw [e] at h
    injection h with h
    exact .inr ⟨r, h.symm⟩

/-- No completed instruction touches the status of a fault or its record. -/
theorem completes_fault (h : Completes i s t) : t.fault = s.fault := by
  cases i with
  | add m1 m2 m3 => obtain ⟨a, b, k, -, -, -, -, rfl⟩ := h; rfl
  | mul m1 m2 m3 => obtain ⟨a, b, k, -, -, -, -, rfl⟩ := h; rfl
  | inp m1 m2 m3 => obtain ⟨k, v, rest, -, -, rfl⟩ := h; rfl
  | out m1 m2 m3 => obtain ⟨a, -, rfl⟩ := h; rfl
  | hlt m1 m2 m3 => rw [show t = setHalted s from h]; rfl

/-- A completed instruction leaves the status alone, or is HLT. -/
theorem completes_status (h : Completes i s t) :
    t.status = s.status ∨ (opcode i = .hlt ∧ t.status = .halted) := by
  cases i with
  | add m1 m2 m3 => obtain ⟨a, b, k, -, -, -, -, rfl⟩ := h; exact .inl rfl
  | mul m1 m2 m3 => obtain ⟨a, b, k, -, -, -, -, rfl⟩ := h; exact .inl rfl
  | inp m1 m2 m3 => obtain ⟨k, v, rest, -, -, rfl⟩ := h; exact .inl rfl
  | out m1 m2 m3 => obtain ⟨a, -, rfl⟩ := h; exact .inl rfl
  | hlt m1 m2 m3 => rw [show t = setHalted s from h]; exact .inr ⟨rfl, rfl⟩

end Sys2Proof.Machine
end

