-- ==== Sys2Proof/Laws/PerInstr.lean ====
section
/-! SUPPORT. Facts said of every instruction, one lemma per constructor. -/

namespace Sys2Proof.Laws

namespace EncodedWord

/-- The word of an instruction is a number whose two low digits are the opcode, whose next three digits
are modes and which has no digit above them (30_encoding.md R60, R74). -/
def Statement (i : Instr) : Prop :=
  ∃ n : Nat, encode i = (n : Int) ∧ n % 100 = opcodeNumber (opcode i) ∧
    n / 100 % 10 ≤ 1 ∧ n / 1000 % 10 ≤ 1 ∧ n / 10000 % 10 ≤ 1 ∧ n ≤ 11199

/-- The fact for the encoding formula itself. -/
theorem wordOf_digits (op : Opcode) (m1 m2 m3 : Mode) :
    ∃ n : Nat, wordOf op m1 m2 m3 = (n : Int) ∧ n % 100 = opcodeNumber op ∧
      n / 100 % 10 ≤ 1 ∧ n / 1000 % 10 ≤ 1 ∧ n / 10000 % 10 ≤ 1 ∧ n ≤ 11199 := by
  have h1 := modeDigit_le m1
  have h2 := modeDigit_le m2
  have h3 := modeDigit_le m3
  have h0 := opcodeNumber_lt op
  refine ⟨_, rfl, ?_, ?_, ?_, ?_, ?_⟩
  · omega
  · omega
  · omega
  · omega
  · cases op <;> simp only [opcodeNumber] at * <;> omega

theorem add (m1 m2 m3 : Mode) : Statement (.add m1 m2 m3) := wordOf_digits .add m1 m2 m3
theorem mul (m1 m2 m3 : Mode) : Statement (.mul m1 m2 m3) := wordOf_digits .mul m1 m2 m3
theorem inp (m1 m2 m3 : Mode) : Statement (.inp m1 m2 m3) := wordOf_digits .inp m1 m2 m3
theorem out (m1 m2 m3 : Mode) : Statement (.out m1 m2 m3) := wordOf_digits .out m1 m2 m3
theorem hlt (m1 m2 m3 : Mode) : Statement (.hlt m1 m2 m3) := wordOf_digits .hlt m1 m2 m3

end EncodedWord

end Sys2Proof.Laws
end

