-- ==== Sys2Proof/Laws/Step.lean ====
section
/-! SUPPORT. What one step can do, said once. -/

namespace Sys2Proof.Machine

variable {s t : State}

theorem stopped_eq_none : stopped s = none ↔ s.status = .running := by
  unfold stopped
  cases s.status <;> simp

/-- A fetch that succeeds has read a word at `ip` and decoded it. -/
theorem fetchInstr_ok {i : Instr} :
    fetchInstr s = .ok i ↔ ∃ w : Int, cellAt s.mem s.ip = some w ∧ decode w = .ok i := by
  simp only [fetchInstr, bind_ok, memRead_ok]

/-- A fetch that fails is out of bounds, or has read a word that does not decode. -/
theorem fetchInstr_error {r : FaultReason} :
    fetchInstr s = .error r ↔
      (cellAt s.mem s.ip = none ∧ r = .outOfBounds s.ip) ∨
        ∃ w : Int, cellAt s.mem s.ip = some w ∧ decode w = .error r := by
  simp only [fetchInstr, bind_error, memRead_error, memRead_ok]

/-- Fault entry as claims describe it: `M[ip]` read through an address is the fetched word. -/
theorem takeFault_eq (s : State) (r : FaultReason) : takeFault r s = faultedWith s r := by
  simp [takeFault, faultedWith]

/-- A Running block takes the fault of a fetch that fails. -/
theorem step_of_fetch_error {r : FaultReason} (h : s.status = .running)
    (hf : fetchInstr s = .error r) : step s = .next (takeFault r s) := by
  simp only [step, stopped_eq_none.2 h, hf]

/-- A Running block runs the instruction of a fetch that succeeds. -/
theorem step_of_fetch_ok {i : Instr} (h : s.status = .running) (hf : fetchInstr s = .ok i) :
    step s = exec i s := by
  simp only [step, stopped_eq_none.2 h, hf]

/-- Inversion of `step`: the block was Running, and the step takes a fault or completes the instruction it
fetched. -/
theorem step_next (h : step s = .next t) :
    s.status = .running ∧
      ((∃ r, t = takeFault r s) ∨ ∃ i, fetchInstr s = .ok i ∧ Completes i s t) := by
  unfold step at h
  split at h
  · cases h
  · rename_i hs
    refine ⟨stopped_eq_none.1 hs, ?_⟩
    split at h
    · rename_i r _
      injection h with h
      exact .inl ⟨r, h.symm⟩
    · rename_i i hi
      rcases exec_next h with hc | hf
      · exact .inr ⟨i, hi, hc⟩
      · exact .inl hf

/-- A completed step has fetched inside memory. -/
theorem fetchInstr_ok_lt {i : Instr} (h : fetchInstr s = .ok i) : s.ip < s.mem.length := by
  obtain ⟨w, hw, -⟩ := fetchInstr_ok.1 h
  have := cellAt_bounds hw
  omega

/-- The port answers what the step does. -/
theorem stepPort_of_step (h : step s = .next t) : stepPort s = t := by
  unfold stepPort
  rw [h]

/-- What it means that a step completes an instruction. -/
theorem completedInstr_some {i : Instr} (h : completedInstr s = some i) :
    s.status = .running ∧ Completes i s (stepPort s) := by
  unfold completedInstr at h
  split at h
  · rename_i t j hst hf
    split at h
    · cases h
    · rename_i hne
      injection h with h
      subst h
      obtain ⟨hs, ⟨r, rfl⟩ | ⟨i', hf', hc⟩⟩ := step_next hst
      · exact absurd rfl hne
      · rw [hf'] at hf
        injection hf with hf
        rw [stepPort_of_step hst]
        exact ⟨hs, hf ▸ hc⟩
  · cases h

/-- A step that completes nothing leaves memory and both queues alone. -/
theorem completedInstr_none (h : completedInstr s = none) :
    (stepPort s).mem = s.mem ∧ (stepPort s).inq = s.inq ∧ (stepPort s).outq = s.outq := by
  unfold stepPort
  cases hst : step s with
  | fault f => exact ⟨rfl, rfl, rfl⟩
  | refused r => exact ⟨rfl, rfl, rfl⟩
  | next t =>
    obtain ⟨hs, ⟨r, rfl⟩ | ⟨i, hf, hc⟩⟩ := step_next hst
    · exact ⟨rfl, rfl, rfl⟩
    · have hne : t.status ≠ .faulted := by
        rcases completes_status hc with e | ⟨-, e⟩ <;> simp [e, hs]
      simp [completedInstr, hst, hf, hne] at h

/-- A state placed with `withFetchWord` fetches the word that was placed. -/
theorem withFetchWord_fetch (s : State) (n w : Nat) :
    fetchInstr (s.withFetchWord n w) = decode (w : Int) := by
  have h : memRead (placeInstr s (Int.ofNat w)).mem (placeInstr s (Int.ofNat w)).ip =
      .ok (Int.ofNat w) := memRead_ok.2 (cellAt_placeWord s.mem s.ip (Int.ofNat w))
  simp only [State.withFetchWord, fetchInstr, h, bind, Except.bind]
  rfl

end Sys2Proof.Machine
end

