-- ==== Sys2Proof/Tests/Slice0.lean ====
section
/-! SUPPORT. Tests. Expected values come from spec/: the file or vector is named beside each. -/

namespace Sys2Proof.Tests

open Sys2Proof.Machine

/-- A Running state at address 0 with the width, memory and input given. -/
def start (b : WordBits) (m : Memory) (i : List Word) : State :=
  { cfg := { wordBits := b }, mem := m, ip := 0, status := .running, fault := none, inq := i, outq := [] }

/-- The state after one step, the state itself where the block takes none. -/
def after (b : WordBits) (m : Memory) (i : List Word) : State := stepPort (start b m i)

/-! ## Well-formedness refuses what it should (00_scope.md R6, 30_encoding.md R72, R79) -/

theorem test_width_15_is_refused : (WordBits.bits 15).wf = false := by decide
theorem test_width_16_is_allowed : (WordBits.bits 16).wf = true ∧ WordBits.inf.wf = true := by decide
theorem test_config_width_15_is_refused : Config.wf { wordBits := .bits 15 } = false := by decide
theorem test_negative_word_is_refused : validWord (-99) = false := by decide
theorem test_opcode_5_is_refused : validWord 5 = false := by decide
theorem test_mode_2_of_param_1_is_refused : validWord 201 = false := by decide
theorem test_mode_2_of_param_2_is_refused : validWord 2001 = false := by decide
theorem test_mode_2_of_param_3_is_refused : validWord 20001 = false := by decide
theorem test_high_digit_is_refused : validWord 100001 = false := by decide
theorem test_cell_out_of_range_is_refused : Memory.wf (.bits 16) [0, 32768] = false := by decide
theorem test_bottom_of_range_is_allowed : Memory.wf (.bits 16) [-32768, 32767] = true := by decide
theorem test_long_memory_is_refused : lengthFits (.bits 16) 32769 = false := by decide
theorem test_longest_memory_is_allowed : lengthFits (.bits 16) 32768 = true := by decide

/-! ## Decoding, each family's words from the encoding of 30_encoding.md R60 (digits C B A then op) -/

/-- C=0 B=1 A=1 op=01 (R77). -/
theorem test_decode_add : decode 1101 = .ok (.add .immediate .immediate .position) := by decide
/-- C=0 B=1 A=0 op=02 (R60). -/
theorem test_decode_mul : decode 1002 = .ok (.mul .position .immediate .position) := by decide
/-- C=1 B=0 A=0 op=03. -/
theorem test_decode_in : decode 10003 = .ok (.inp .position .position .immediate) := by decide
/-- C=0 B=0 A=1 op=04 (R77). -/
theorem test_decode_out : decode 104 = .ok (.out .immediate .position .position) := by decide
/-- C=1 B=1 A=1 op=99, the largest valid word (95_test_vectors.md section 2). -/
theorem test_decode_hlt : decode 11199 = .ok (.hlt .immediate .immediate .immediate) := by decide

/-- 95_test_vectors.md section 2: words with a bad opcode. -/
theorem test_decode_bad_opcodes :
    ∀ w ∈ ([0, 5, 7, 12, 98, 100, 305, -1, -99, -101] : List Int),
      decode w = .error .invalidOpcode := by decide
/-- 95_test_vectors.md section 2: words with a bad mode digit, and which. -/
theorem test_decode_bad_modes :
    decode 201 = .error (.invalidMode .param1) ∧ decode 2001 = .error (.invalidMode .param2) ∧
    decode 20001 = .error (.invalidMode .param3) ∧ decode 299 = .error (.invalidMode .param1) ∧
    decode 2199 = .error (.invalidMode .param2) ∧ decode 100001 = .error (.invalidMode .high) ∧
    decode 1000099 = .error (.invalidMode .high) := by decide
/-- The opcode table's `match` values decode to their rows. -/
theorem test_decodeTableWord :
    decodeTableWord 8 1 = some (.add .position .position .position) ∧
    decodeTableWord 8 99 = some (.hlt .position .position .position) ∧
    decodeTableWord 16 0 = none := by decide
/-- R77: the worked encodings. -/
theorem test_encode :
    encode (.add .immediate .immediate .position) = 1101 ∧
    encode (.mul .position .immediate .position) = 1002 ∧
    encode (.inp .position .position .position) = 3 ∧
    encode (.out .immediate .position .position) = 104 ∧
    encode (.hlt .position .position .position) = 99 := by decide

/-! ## One step of each instruction (95_test_vectors.md) -/

/-- A1: both operands and the target are cell 0. -/
theorem test_add_own_word : (after .inf [1, 0, 0, 0, 99] []).mem = [2, 0, 0, 0, 99] := by decide
/-- A14: one above the top of the range. -/
theorem test_add_overflow :
    faultPort (after (.bits 16) [1101, 32767, 1, 0, 99] []) =
      some { reason := 5, ip := 0, word := some 1101, addr := none, param := none } := by decide
/-- M6: exactly the bottom of the range. -/
theorem test_mul_bottom_of_range :
    (after (.bits 16) [1102, -128, 256, 0, 99] []).mem = [-32768, -128, 256, 0, 99] := by decide
/-- M5: the most negative number times -1. -/
theorem test_mul_overflow :
    faultPort (after (.bits 16) [1102, -32768, -1, 0, 99] []) =
      some { reason := 5, ip := 0, word := some 1102, addr := none, param := none } := by decide
/-- I9: the target is the instruction's own parameter. -/
theorem test_in_own_parameter :
    (after .inf [3, 1, 99] [42, 43]).mem = [3, 42, 99] ∧
      (after .inf [3, 1, 99] [42, 43]).inq = [43] := by decide
/-- I8: the target is checked before the input is asked for. -/
theorem test_in_target_before_input :
    faultPort (after .inf [3, -1, 99] []) =
      some { reason := 3, ip := 0, word := some 3, addr := some (-1), param := none } := by decide
/-- O3: Position mode reads one cell more than Immediate. -/
theorem test_out_position : (after .inf [4, 3, 99, -77] []).outq = [-77] := by decide
/-- O1: Immediate mode emits the parameter itself. -/
theorem test_out_immediate : (after .inf [104, -5, 99] []).outq = [-5] := by decide
/-- H2: a HLT word with a mode digit halts, and `ip` stays. -/
theorem test_hlt : (after .inf [1099] []).status = .halted ∧ (after .inf [1099] []).ip = 0 := by decide
/-- H5: the empty program. -/
theorem test_empty_program :
    faultPort (after .inf [] []) =
      some { reason := 3, ip := 0, word := none, addr := some 0, param := none } := by decide
/-- R75, R77: assembly with a label. -/
theorem test_assemble_label :
    assembleProgram
        [ { label := none, statement := .add ⟨.immediate, .num 100⟩ ⟨.immediate, .num (-1)⟩
              ⟨.position, .label "end"⟩ },
          { label := some "end", statement := .word [.num 0] } ] =
      some [1101, 100, -1, 4, 0] := by decide
/-- An undefined label and a label defined twice are refused (log entry 8). -/
theorem test_assemble_refuses :
    assembleProgram [ { label := none, statement := .out ⟨.position, .label "x"⟩ } ] = none ∧
    assembleProgram [ { label := some "x", statement := .hlt }, { label := some "x", statement := .hlt } ] =
      none := by decide

/-! ## Witnesses: for each statement with hypotheses, values that meet them -/

theorem witness_LoadStartsARun_bounds :
    ∃ n, WordBits.bits 16 = .bits n ∧ ([-32768, 32767] : List Word).length ≤ 2 ^ (n - 1) ∧
      ∀ v : Int, v ∈ ([-32768, 32767] : List Word) ++ [32767] →
        -(2 ^ (n - 1) : Int) ≤ v ∧ v ≤ 2 ^ (n - 1) - 1 :=
  ⟨16, rfl, by decide, by decide⟩
theorem witness_LoadStartsARun_inf : State.reset.cfg.wordBits = .inf := rfl
theorem witness_LoadRefuses_value :
    (start (.bits 16) [] []).cfg.wordBits = .bits 16 ∧
      ∃ v : Int, v ∈ ([32768] : List Word) ++ [] ∧ (v < -(2 ^ (16 - 1) : Int) ∨ 2 ^ (16 - 1) - 1 < v) :=
  ⟨rfl, 32768, by decide, by decide⟩
theorem witness_LoadRefuses_length :
    (start (.bits 16) [] []).cfg.wordBits = .bits 16 ∧
      2 ^ (16 - 1) < (List.replicate 32769 (0 : Word)).length :=
  ⟨rfl, by rw [List.length_replicate]; decide⟩
theorem witness_LoadRefuses_empty :
    ∀ v : Int, v ∈ ([-32768] : List Word) →
      inRange (start (.bits 16) [] []).cfg.wordBits v = true := by decide
theorem witness_LoadMeetsTheInvariant :
    (start (.bits 16) [5] []).cfg.wf = true ∧
      load [99] [7] (start (.bits 16) [5] []) = .next (start (.bits 16) [99] [7]) :=
  ⟨by decide, rfl⟩
theorem witness_StepKeepsTheInvariant :
    Inv (start (.bits 16) [1101, 32767, 0, 0] [1]) ∧
      step (start (.bits 16) [1101, 32767, 0, 0] [1]) =
        .next { start (.bits 16) [32767, 32767, 0, 0] [1] with ip := 4 } :=
  ⟨⟨by decide, by decide, by decide, by decide, by decide, by decide⟩, rfl⟩
theorem witness_DecodeInvertsEncodeExactly :
    decode 10102 = .ok (.mul .immediate .position .immediate) := by decide
theorem witness_FortyWords : (10104 : Int) ∈ listedWords .out ∧ (11199 : Int) ∈ listedWords .hlt := by decide
theorem witness_TableRows :
    { mnemonic := "IN", opcode := .inp, modulus := 100, value := 3, width := 2 } ∈ opcodeTable := by decide
theorem witness_DecodeChecksInOrder_negative : (-1 : Int) < 0 := by decide
theorem witness_DecodeChecksInOrder_opcode :
    (0 : Int) ≤ 98 ∧ (98 : Int) % 100 ∉ ([1, 2, 3, 4, 99] : List Int) := by decide
theorem witness_DecodeChecksInOrder_param1 :
    (0 : Int) ≤ 201 ∧ (201 : Int) % 100 ∈ ([1, 2, 3, 4, 99] : List Int) ∧ (1 : Int) < 201 / 100 % 10 := by
  decide
theorem witness_DecodeChecksInOrder_param2 :
    (2199 : Int) % 100 ∈ ([1, 2, 3, 4, 99] : List Int) ∧ (2199 : Int) / 100 % 10 ≤ 1 ∧
      (1 : Int) < 2199 / 1000 % 10 := by decide
theorem witness_DecodeChecksInOrder_param3 :
    (21101 : Int) % 100 ∈ ([1, 2, 3, 4, 99] : List Int) ∧ (21101 : Int) / 100 % 10 ≤ 1 ∧
      (21101 : Int) / 1000 % 10 ≤ 1 ∧ (1 : Int) < 21101 / 10000 % 10 := by decide
theorem witness_DecodeChecksInOrder_high :
    (111101 : Int) % 100 ∈ ([1, 2, 3, 4, 99] : List Int) ∧ (111101 : Int) / 100 % 10 ≤ 1 ∧
      (111101 : Int) / 1000 % 10 ≤ 1 ∧ (111101 : Int) / 10000 % 10 ≤ 1 ∧
      (111101 : Int) / 100000 ≠ 0 := by decide
theorem witness_DecodeChecksInOrder_valid :
    (11199 : Int) % 100 ∈ ([1, 2, 3, 4, 99] : List Int) ∧ (11199 : Int) / 100 % 10 ≤ 1 ∧
      (11199 : Int) / 1000 % 10 ≤ 1 ∧ (11199 : Int) / 10000 % 10 ≤ 1 ∧
      (11199 : Int) / 100000 = 0 := by decide
theorem witness_StepRunsTheDecodedInstruction :
    (start .inf [1002, 0, 5, 0] []).status = .running ∧
      cellAt (start .inf [1002, 0, 5, 0] []).mem (start .inf [1002, 0, 5, 0] []).ip = some 1002 ∧
      decode 1002 = .ok (.mul .position .immediate .position) := by decide
theorem witness_FetchChecks_outside :
    (start .inf [] []).status = .running ∧ (start .inf [] []).mem.length ≤ (start .inf [] []).ip := by decide
theorem witness_FetchChecks_last_cell :
    (start .inf [99] []).ip < (start .inf [99] []).mem.length ∧
      decode 99 = .ok (.hlt .position .position .position) := by decide
theorem witness_FetchChecks_bad_word :
    (start .inf [7] []).ip < (start .inf [7] []).mem.length ∧ decode 7 = .error .invalidOpcode := by decide
theorem witness_BadOpcode_negative :
    (start .inf [-1] []).status = .running ∧ cellAt (start .inf [-1] []).mem 0 = some (-1) ∧
      ((-1 : Int) < 0 ∨ (-1 : Int) % 100 ∉ ([1, 2, 3, 4, 99] : List Int)) := by decide
theorem witness_BadOpcode_unknown :
    cellAt (start .inf [100] []).mem 0 = some 100 ∧
      ((100 : Int) < 0 ∨ (100 : Int) % 100 ∉ ([1, 2, 3, 4, 99] : List Int)) := by decide
theorem witness_BadMode :
    (start .inf [100001] []).status = .running ∧ (0 : Int) ≤ 100001 ∧ cellAt (start .inf [100001] []).mem 0 = some 100001 ∧
      (100001 : Int) % 100 ∈ ([1, 2, 3, 4, 99] : List Int) ∧ (100000 : Int) ≤ 100001 := by decide
theorem witness_StoppedBlock :
    State.status { start .inf [] [] with status := .halted } = .halted ∧
      State.status { start .inf [] [] with status := .faulted } = .faulted := by decide
/-- The state of the next witness: an ADD whose operands are 32766 and cell 4 and whose target is cell 4. -/
def addState : State := start (.bits 16) [101, 32766, 4, 4, 1] []
theorem witness_AddCompletes :
    operandAt addState 1 .immediate = some 32766 ∧ operandAt addState 2 .position = some 1 ∧
      cellAt addState.mem (addState.ip + 3) = some ((4 : Nat) : Int) ∧ 4 < addState.mem.length ∧
      inRange addState.cfg.wordBits (32766 + 1) = true := by decide
/-- The state of the next witness: a MUL whose product is the bottom of the range. -/
def mulState : State := start (.bits 16) [1102, -128, 256, 3] []
theorem witness_MulCompletes :
    operandAt mulState 1 .immediate = some (-128) ∧ operandAt mulState 2 .immediate = some 256 ∧
      cellAt mulState.mem (mulState.ip + 3) = some ((3 : Nat) : Int) ∧ 3 < mulState.mem.length ∧
      inRange mulState.cfg.wordBits (-128 * 256) = true := by decide
/-- The state of the next witness: -32768 and -1, whose sum is one below the range and whose product is one
above it. -/
def overState : State := start (.bits 16) [1101, -32768, -1, 0] []
theorem witness_Overflow :
    overState.cfg.wordBits = .bits 16 ∧ operandAt overState 1 .immediate = some (-32768) ∧
      operandAt overState 2 .immediate = some (-1) ∧
      cellAt overState.mem (overState.ip + 3) = some ((0 : Nat) : Int) ∧ 0 < overState.mem.length ∧
      (-32768 + -1 : Int) < -(2 ^ (16 - 1) : Int) ∧ (2 ^ (16 - 1) - 1 : Int) < -32768 * -1 := by decide
theorem witness_ArithmeticFrame_add :
    exec (.add .immediate .immediate .position) (start .inf [1101, 1, 1, 3] []) =
      .next { start .inf [1101, 1, 1, 2] [] with ip := 4 } := rfl
theorem witness_ArithmeticFrame_mul :
    exec (.mul .immediate .immediate .position) (start .inf [1102, 2, 3, 3] []) =
      .next { start .inf [1102, 2, 3, 6] [] with ip := 4 } := rfl
theorem witness_InCompletes :
    cellAt (start .inf [3, 1] [7]).mem (0 + 1) = some ((1 : Nat) : Int) ∧
      1 < (start .inf [3, 1] [7]).mem.length ∧ (start .inf [3, 1] [7]).inq = 7 :: [] := by decide
theorem witness_InOnEmptyQueueFaults :
    cellAt (start .inf [3, 1] []).mem (0 + 1) = some ((1 : Nat) : Int) ∧
      1 < (start .inf [3, 1] []).mem.length ∧ (start .inf [3, 1] []).inq = [] := by decide
theorem witness_InChecksItsTargetFirst_low : cellAt (start .inf [3, -1] []).mem (0 + 1) = some (-1) := by decide
theorem witness_InChecksItsTargetFirst_high :
    cellAt (start .inf [3, 2] []).mem (0 + 1) = some 2 ∧
      ((start .inf [3, 2] []).mem.length : Int) ≤ 2 := by decide
theorem witness_InFrame :
    exec (.inp .position .position .position) (start .inf [3, 0] [7]) =
      .next { start .inf [7, 0] [] with ip := 2 } := rfl
theorem witness_OutCompletes : operandAt (start .inf [4, 0] []) 1 .position = some 4 := by decide
theorem witness_OutFrame :
    exec (.out .position .position .position) (start .inf [4, 0] []) =
      .next { start .inf [4, 0] [] with ip := 2, outq := [4] } := rfl
theorem witness_LastCell :
    cellAt (start .inf [4, 2, 9] []).mem (0 + 1) = some 2 ∧
      (2 : Int) = ((start .inf [4, 2, 9] []).mem.length : Int) - 1 := by decide
theorem witness_LastCell_next :
    cellAt (start .inf [4, 3, 9] []).mem (0 + 1) = some 3 ∧
      ((start .inf [4, 3, 9] []).mem.length : Int) ≤ 3 := by decide
theorem witness_OnlyHaltWordsHalt :
    step (start .inf [99] []) = .next { start .inf [99] [] with status := .halted } := rfl
theorem witness_ImmediateReads :
    cellAt ([104, 7, 5] : Memory) (0 + 1) = cellAt (start .inf [104, 7] []).mem (0 + 1) ∧
      cellAt (start .inf [104, 0] []).mem (0 + 1) = some 0 ∧
      cellAt (start .inf [104, 0] []).mem 0 = some 104 ∧
      cellAt (start .inf [104, 2] []).mem 2 = none := by decide
theorem witness_FirstCondition_some :
    firstFault (start .inf [3, -1] []) = some (.outOfBounds (-1)) ∧
      firstFault (start .inf [305] []) = some .invalidOpcode ∧
      firstFault (start (.bits 16) [1102, 182, 181, 0] []) = some .overflow := by decide
theorem witness_FirstCondition_none : firstFault (start .inf [99] []) = none := by decide
theorem witness_FaultingStep :
    ∃ t, step (start .inf [201] []) = .next t ∧ t.status = .faulted := ⟨_, rfl, rfl⟩
theorem witness_PointerAdvances :
    ∃ t, step (start .inf [104, 5] []) = .next t ∧ t.status = .running ∧ t.ip = 2 := ⟨_, rfl, rfl, rfl⟩
theorem witness_OnlyTheNamedInstructionsWrite :
    ∃ t, step (start .inf [3, 0] [7]) = .next t ∧ t.mem ≠ (start .inf [3, 0] [7]).mem ∧
      t.inq ≠ (start .inf [3, 0] [7]).inq := ⟨_, rfl, by decide, by decide⟩
theorem witness_EveryRunEnds : (start .inf [104, 1, 104, 2] []).ip = 0 := rfl
theorem test_stored_cell :
    ∀ p ∈ history 1 (start .inf [1101, 1, 1, 3] []), storedCell p = some (3, 2) := by decide
/-- The source's example `1101,100,-1,4,0` (95_test_vectors.md S3). -/
def selfModState : State := start (.bits 16) [1101, 100, -1, 4, 0] []
theorem witness_WrittenWordIsFetchedNext :
    selfModState.status = .running ∧ cellAt selfModState.mem selfModState.ip = some 1101 ∧
      decode 1101 = .ok (.add .immediate .immediate .position) ∧
      operandAt selfModState 1 .immediate = some 100 ∧ operandAt selfModState 2 .immediate = some (-1) ∧
      cellAt selfModState.mem (selfModState.ip + 3) = some ((selfModState.ip + 4 : Nat) : Int) ∧
      selfModState.ip + 4 < selfModState.mem.length ∧
      inRange selfModState.cfg.wordBits (100 + -1) = true ∧
      decode (100 + -1) = .ok (.hlt .position .position .position) := by decide
theorem witness_AssembledStatements :
    ∀ vs, (Statement.hlt : Statement Int) ≠ .word vs := by intro vs h; cases h
/-- R76 on 1099: the mnemonic is HLT, the digit of the absent operand is kept, and the word comes back. -/
theorem witness_DisassembledCells :
    disassemble [1099, 5] =
        some { statement := .hlt, absent := ⟨.position, .immediate, .position⟩, rest := [5] } ∧
      assembleWith ⟨.position, .immediate, .position⟩ .hlt = [1099] := by decide
theorem witness_DisassembledCells_zero :
    disassemble [3, 7, 5] =
      some { statement := .inp ⟨.position, 7⟩, absent := absentZero, rest := [5] } := by decide
theorem witness_ValidWords :
    decode 11104 = .ok (.out .immediate .immediate .immediate) ∧
      width (opcode (.out .immediate .immediate .immediate)) ≤ ([7] : List Word).length + 1 ∧
      decode 5 = .error .invalidOpcode := by decide
theorem witness_DecodedFields : decode 11002 = .ok (instrOf .mul .position .immediate .immediate) := by decide
/-- Every clause of the rules of ADD and MUL: an operand cell, a parameter cell or an address missing. -/
theorem witness_BinaryRule_faults :
    cellAt (start .inf [1] []).mem (0 + 1) = none ∧
      (cellAt (start .inf [2, 2] []).mem (0 + 1) = some 2 ∧ cellAt (start .inf [2, 2] []).mem 2 = none) ∧
      (operandAt (start .inf [1, 0] []) 1 .position = some 1 ∧
        cellAt (start .inf [1, 0] []).mem (0 + 2) = none) ∧
      (operandAt (start .inf [1, 0, -1] []) 1 .position = some 1 ∧
        cellAt (start .inf [1, 0, -1] []).mem (0 + 2) = some (-1) ∧
        cellAt (start .inf [1, 0, -1] []).mem (-1) = none) ∧
      (operandAt (start .inf [1, 0, 0] []) 2 .position = some 1 ∧
        cellAt (start .inf [1, 0, 0] []).mem (0 + 3) = none) ∧
      (cellAt (start .inf [1, 0, 0, 4] []).mem (0 + 3) = some 4 ∧
        cellAt (start .inf [1, 0, 0, 4] []).mem 4 = none) := by decide
theorem witness_AddWords :
    addState.status = .running ∧ cellAt addState.mem addState.ip = some 101 ∧
      (101 : Int) ∈ ([1, 101, 1001, 1101, 10001, 10101, 11001, 11101] : List Int) ∧
      modeOfDigit (101 / 100 % 10) = .immediate ∧ modeOfDigit (101 / 1000 % 10) = .position := by decide
theorem witness_MulWords :
    mulState.status = .running ∧ cellAt mulState.mem mulState.ip = some 1102 ∧
      (1102 : Int) ∈ ([2, 102, 1002, 1102, 10002, 10102, 11002, 11102] : List Int) ∧
      modeOfDigit (1102 / 100 % 10) = .immediate ∧ modeOfDigit (1102 / 1000 % 10) = .immediate := by decide
theorem witness_InWords :
    (start .inf [11103, 1] [7]).status = .running ∧
      cellAt (start .inf [11103, 1] [7]).mem 0 = some 11103 ∧
      (11103 : Int) ∈ ([3, 103, 1003, 1103, 10003, 10103, 11003, 11103] : List Int) ∧
      cellAt (start .inf [11103, 1] [7]).mem (0 + 1) = some ((1 : Nat) : Int) := by decide
theorem witness_InWords_faults :
    cellAt (start .inf [3] [7]).mem (0 + 1) = none ∧
      (cellAt (start .inf [3, 2] [7]).mem (0 + 1) = some 2 ∧
        cellAt (start .inf [3, 2] [7]).mem 2 = none) := by decide
theorem witness_OutWords :
    (start .inf [11004, 1] []).status = .running ∧ cellAt (start .inf [11004, 1] []).mem 0 = some 11004 ∧
      (11004 : Int) ∈ ([4, 104, 1004, 1104, 10004, 10104, 11004, 11104] : List Int) ∧
      operandAt (start .inf [11004, 1] []) 1 (modeOfDigit (11004 / 100 % 10)) = some 1 := by decide
theorem witness_OutWords_faults :
    cellAt (start .inf [104] []).mem (0 + 1) = none ∧
      (cellAt (start .inf [4, 2] []).mem (0 + 1) = some 2 ∧
        cellAt (start .inf [4, 2] []).mem 2 = none) := by decide
theorem witness_HaltWords :
    (start .inf [11199] []).status = .running ∧ cellAt (start .inf [11199] []).mem 0 = some 11199 ∧
      (11199 : Int) ∈ ([99, 199, 1099, 1199, 10099, 10199, 11099, 11199] : List Int) := by decide
theorem witness_LengthAndParameters :
    ∃ t, step (start (.bits 16) [104, 5] []) = .next t ∧ t.mem.length = 2 := ⟨_, rfl, rfl⟩
theorem witness_RunningBlockAlwaysSteps : (start .inf [-5] []).status = .running := rfl
theorem witness_StoppedBlock_load :
    load [99] [] { start .inf [] [] with status := .faulted } = .next (start .inf [99] []) := rfl
theorem witness_BadMode_each_digit :
    (1 : Int) < 201 / 100 % 10 ∧ (1 : Int) < 2001 / 1000 % 10 ∧ (1 : Int) < 20001 / 10000 % 10 := by decide
theorem witness_PointerAdvances_add :
    ∃ t, step (start .inf [1101, 1, 1, 3] []) = .next t ∧ t.status = .running ∧ t.ip = 4 := ⟨_, rfl, rfl, rfl⟩
theorem witness_PointerAdvances_halt :
    ∃ t, step (start .inf [99] []) = .next t ∧ t.status ≠ .running := ⟨_, rfl, by decide⟩
theorem witness_OnlyTheNamed_output :
    ∃ t, step (start .inf [104, 5] []) = .next t ∧ t.outq ≠ (start .inf [104, 5] []).outq :=
  ⟨_, rfl, by decide⟩
theorem witness_FaultRecordIsNeverRead :
    (start .inf [99] []).status = .running ∧ ∃ t, step (start .inf [99] []) = .next t := ⟨rfl, _, rfl⟩
theorem witness_EveryRunDeliversAResult :
    (start .inf [99] []).status = .running ∧ (start .inf [99] []).ip = 0 ∧
      RunsSafely (start .inf [99] []) := ⟨rfl, rfl, rfl⟩
/-- F1: at Faulted the result holds the report and the state, memory unchanged (R137). -/
theorem witness_EveryRunDeliversAResult_faulted :
    runResult (runToEnd (start .inf [7, 0] [])) =
      .faulted (some { reason := 1, ip := 0, word := some 7, addr := none, param := none })
        (faultedWith (start .inf [7, 0] []) .invalidOpcode) := by decide

end Sys2Proof.Tests
end

section
/-! SUPPORT. The memory as a replay of completed writes (20_memory.md R47). -/

namespace Sys2Proof.Machine

/-- Replaying two lists of writes one after the other. -/
theorem valueAfter_append (before : Option Int) (a : Nat) (ws ws' : List (Nat × Int)) :
    valueAfter before a (ws ++ ws') = valueAfter (valueAfter before a ws) a ws' := by
  induction ws generalizing before with
  | nil => rfl
  | cons w ws ih => exact ih _

/-- A write inside memory changes each cell as its one-entry replay says. -/
theorem cellAt_set_eq_valueAfter {m : Memory} {k : Nat} (v : Int) (a : Nat) (hk : k < m.length) :
    cellAt (m.set k v) a = valueAfter (cellAt m a) a [(k, v)] := by
  by_cases h : k = a
  · subst h
    rw [cellAt_set_self hk]
    simp [valueAfter]
  · have hne : (a : Int) ≠ k := by omega
    rw [cellAt_set_of_ne hne]
    simp [valueAfter, h]

/-- A completed instruction writes the cell `storedCell` names, which is inside memory, or it names none
and the memory stays (10_state.md R22). -/
theorem completes_mem {i : Instr} {s t : State} (h : Completes i s t) :
    (∃ (k : Nat) (v : Int), storedCell (s, i) = some (k, v) ∧ k < s.mem.length ∧
        t.mem = s.mem.set k v) ∨
      (storedCell (s, i) = none ∧ t.mem = s.mem) := by
  cases i with
  | add m1 m2 m3 =>
    obtain ⟨a, b, k, ha, hb, hk, -, rfl⟩ := h
    exact .inl ⟨k, a + b, by simp [storedCell, ha, hb, hk], (targetAt_eq_some.1 hk).2, rfl⟩
  | mul m1 m2 m3 =>
    obtain ⟨a, b, k, ha, hb, hk, -, rfl⟩ := h
    exact .inl ⟨k, a * b, by simp [storedCell, ha, hb, hk], (targetAt_eq_some.1 hk).2, rfl⟩
  | inp m1 m2 m3 =>
    obtain ⟨k, v, rest, hk, hq, rfl⟩ := h
    exact .inl ⟨k, v, by simp [storedCell, hk, hq], (targetAt_eq_some.1 hk).2, rfl⟩
  | out m1 m2 m3 =>
    obtain ⟨a, -, rfl⟩ := h
    exact .inr ⟨rfl, rfl⟩
  | hlt m1 m2 m3 =>
    rw [show t = setHalted s from h]
    exact .inr ⟨rfl, rfl⟩

/-- One use of the `STEP` port changes each cell as the replay of its own history says. -/
theorem cellAt_stepPort (s : State) (a : Nat) :
    cellAt (stepPort s).mem a =
      valueAfter (cellAt s.mem a) a ((history 1 s).filterMap storedCell) := by
  cases hc : completedInstr s with
  | none =>
    obtain ⟨hmem, -, -⟩ := completedInstr_none hc
    simp [history, hc, hmem, valueAfter]
  | some i =>
    obtain ⟨-, hi⟩ := completedInstr_some hc
    obtain ⟨k, v, hst, hk, hmem⟩ | ⟨hst, hmem⟩ := completes_mem hi
    · rw [hmem, cellAt_set_eq_valueAfter v a hk]
      simp [history, hc, hst]
    · simp [history, hc, hst, hmem, valueAfter]

/-- The history of a run is that of its first step and then that of the rest. -/
theorem history_succ (k : Nat) (s : State) :
    history (k + 1) s = history 1 s ++ history k (stepPort s) := by
  simp [history]

/-- Settles O47, by induction on the number of steps: the first step's writes are replayed first, and the
rest of the run starts from the cell they leave. -/
theorem cellsHoldTheMostRecentWrite : Obligations.CellsHoldTheMostRecentWrite := by
  intro k
  induction k with
  | zero => intro s a; rfl
  | succ k ih =>
    intro s a
    calc cellAt (run (k + 1) s).mem a
        = valueAfter (cellAt (stepPort s).mem a) a
            ((history k (stepPort s)).filterMap storedCell) := ih (stepPort s) a
      _ = valueAfter (cellAt s.mem a) a ((history (k + 1) s).filterMap storedCell) := by
          rw [cellAt_stepPort, history_succ k, List.filterMap_append, valueAfter_append]

end Sys2Proof.Machine
end

section
/-! SUPPORT. The digits of a word that decodes (30_encoding.md R73). -/

namespace Sys2Proof

/-- An instruction determines its opcode and its three modes. -/
theorem instrOf_inj {op op' : Opcode} {m1 m2 m3 m1' m2' m3' : Mode} :
    instrOf op m1 m2 m3 = instrOf op' m1' m2' m3' ↔
      op = op' ∧ m1 = m1' ∧ m2 = m2' ∧ m3 = m3' := by
  constructor
  · intro h
    have hop : op = op' := by simpa using congrArg opcode h
    subst hop
    cases op <;> simpa [instrOf] using h
  · rintro ⟨rfl, rfl, rfl, rfl⟩
    rfl

/-- A word decodes to the instruction of an opcode and three modes exactly when these are its digits and
no digit stands above them (30_encoding.md R65). -/
theorem decode_eq_instrOf {w : Int} {op : Opcode} {m1 m2 m3 : Mode} :
    decode w = .ok (instrOf op m1 m2 m3) ↔
      0 ≤ w ∧ w.toNat % 100 = opcodeNumber op ∧ w.toNat / 100 % 10 = modeDigit m1 ∧
        w.toNat / 1000 % 10 = modeDigit m2 ∧ w.toNat / 10000 % 10 = modeDigit m3 ∧
        w.toNat < 100000 := by
  simp only [decode_ok, decodeModes_ok, instrOf_inj]
  constructor
  · rintro ⟨hw, _, hop, _, _, _, h1, h2, h3, hlt, rfl, rfl, rfl, rfl⟩
    exact ⟨hw, hop, h1, h2, h3, hlt⟩
  · rintro ⟨hw, hop, h1, h2, h3, hlt⟩
    exact ⟨hw, op, hop, m1, m2, m3, h1, h2, h3, hlt, rfl, rfl, rfl, rfl⟩

/-- Settles O10: decoding has checked the digits of a natural number, and they are those of the word. -/
theorem decodedFieldsAreTheDigits : Obligations.DecodedFieldsAreTheDigits := by
  intro w op m1 m2 m3 h
  obtain ⟨hw, hop, h1, h2, h3, -⟩ := decode_eq_instrOf.1 h
  lift w to ℕ using hw
  simp only [Int.toNat_natCast] at hop h1 h2 h3
  refine ⟨?_, ?_, ?_, ?_⟩ <;> omega

end Sys2Proof
end

section
/-! SUPPORT. What each operand form reads (30_encoding.md R69). -/

namespace Sys2Proof.Machine

/-- The Immediate resolver is the read of the parameter cell and nothing more. -/
theorem resolve_immediate (k : Nat) (s : State) : resolve k .immediate s = param k s := by
  unfold resolve
  cases param k s <;> rfl

/-- A read depends on the cell at its address alone. -/
theorem memRead_congr {m m' : Memory} {a : Int} (h : cellAt m a = cellAt m' a) :
    memRead m a = memRead m' a := by
  simp only [memRead, h]

/-- Settles O38: Immediate is one read of the parameter cell; Position goes on to the cell it addresses. -/
theorem immediateReadsTheParameterAlone : Obligations.ImmediateReadsTheParameterAlone := by
  constructor
  · intro s k m h
    rw [resolve_immediate, resolve_immediate]
    exact memRead_congr h
  · intro s k p v hp
    refine ⟨resolve_ok.2 hp, fun hv => resolve_ok.2 ?_, fun hn => resolve_error.2 ?_⟩
    · simp [operandAt, hp, hv]
    · exact .inr ⟨p, hp, rfl, hn, rfl⟩

end Sys2Proof.Machine
end

section
/-! SUPPORT. The rule of ADD and MUL from the word on (40_arithmetic.md R82, R83). -/

namespace Sys2Proof.Machine

/-- A step that ends in a raised reason faults with it, and the report carries the word at `ip`
(60_exceptions.md R114). -/
theorem stepFaults_of_finish_error {s : State} {body : Except FaultReason State} {r : FaultReason}
    (hstep : step s = finish s body) (hbody : body = .error r) : StepFaults s r := by
  rw [hbody, finish_error, takeFault_eq] at hstep
  exact ⟨_, _, hstep, rfl, rfl, rfl, rfl, rfl⟩

/-- Each exception of ADD and MUL, with what must have succeeded before it is checked. -/
theorem binaryBody_error {op : Opcode} {f : Int → Int → Int} {m1 m2 : Mode} {s : State}
    {r : FaultReason} :
    binaryBody op f m1 m2 s = .error r ↔
      resolve 1 m1 s = .error r ∨ ∃ a : Int, operandAt s 1 m1 = some a ∧
        (resolve 2 m2 s = .error r ∨ ∃ b : Int, operandAt s 2 m2 = some b ∧
          (target 3 s = .error r ∨ ∃ k, targetAt s 3 = some k ∧
            inRange s.cfg.wordBits (f a b) = false ∧ r = .overflow)) := by
  simp only [binaryBody, bind_error, resolve_ok, target_ok, checkResult_error, reduceCtorEq,
    and_false, exists_false, or_false]

/-- Each word the table lists decodes to its operation with the modes of its digits (30_encoding.md
section 4). -/
theorem decode_listedWord (op : Opcode) : ∀ w ∈ listedWords op,
    decode w = .ok (instrOf op (modeOfDigit (w / 100 % 10)) (modeOfDigit (w / 1000 % 10))
      (modeOfDigit (w / 10000 % 10))) := by
  cases op <;> decide

/-- A step on a listed word executes its operation in the modes of its digits. -/
theorem step_listedWord {s : State} {w : Int} {op : Opcode} (hs : s.status = .running)
    (hw : cellAt s.mem s.ip = some w) (hmem : w ∈ listedWords op) :
    step s = exec (instrOf op (modeOfDigit (w / 100 % 10)) (modeOfDigit (w / 1000 % 10))
      (modeOfDigit (w / 10000 % 10))) s :=
  step_of_fetch_ok hs (fetchInstr_ok.2 ⟨w, hw, decode_listedWord op w hmem⟩)

/-- The listed words of an operation of width 4 that ends as the common body does follow the rule of
ADD and MUL. -/
theorem binaryRule_listedWords {op : Opcode} {f : Int → Int → Int} (hwidth : width op = 4)
    (hexec : ∀ (m1 m2 m3 : Mode) (s : State),
      exec (instrOf op m1 m2 m3) s = finish s (binaryBody op f m1 m2 s)) :
    BinaryRule (listedWords op) f := by
  intro s w hs hw hmem m1 m2
  have hstep : step s = finish s (binaryBody op f m1 m2 s) :=
    (step_listedWord hs hw hmem).trans (hexec m1 m2 _ s)
  have raises {r : FaultReason} (h : binaryBody op f m1 m2 s = .error r) : StepFaults s r :=
    stepFaults_of_finish_error hstep h
  have source1 {r : FaultReason} (h : resolve 1 m1 s = .error r) : StepFaults s r :=
    raises (binaryBody_error.2 (.inl h))
  refine ⟨fun a b t ha hb ht hlt => ?_, fun hn => source1 (resolve_error.2 (.inl ⟨hn, rfl⟩)),
    fun p hp hm hn => source1 (resolve_error.2 (.inr ⟨p, hp, hm, hn, rfl⟩)), fun a ha => ?_⟩
  · have hk : targetAt s 3 = some t := targetAt_eq_some.2 ⟨ht, hlt⟩
    constructor
    · intro hr
      rw [hstep, binaryBody_ok.2 ⟨a, b, t, ha, hb, hk, hr, rfl⟩, finish_ok, advance, hwidth]
      rfl
    · intro hr
      exact raises (binaryBody_error.2 (.inr ⟨a, ha, .inr ⟨b, hb, .inr ⟨t, hk, hr, rfl⟩⟩⟩))
  · have source2 {r : FaultReason} (h : resolve 2 m2 s = .error r) : StepFaults s r :=
      raises (binaryBody_error.2 (.inr ⟨a, ha, .inl h⟩))
    refine ⟨fun hn => source2 (resolve_error.2 (.inl ⟨hn, rfl⟩)),
      fun p hp hm hn => source2 (resolve_error.2 (.inr ⟨p, hp, hm, hn, rfl⟩)), fun b hb => ?_⟩
    have target3 {r : FaultReason} (h : target 3 s = .error r) : StepFaults s r :=
      raises (binaryBody_error.2 (.inr ⟨a, ha, .inr ⟨b, hb, .inl h⟩⟩))
    exact ⟨fun hn => target3 (target_error.2 (.inl ⟨hn, rfl⟩)),
      fun p hp hn => target3 (target_error.2 (.inr ⟨p, hp, hn, rfl⟩))⟩

/-- Settles O32: the eight words are those listed for ADD, whose meaning is the common body with the
sum. -/
theorem addWordsFollowTheirRule : Obligations.AddWordsFollowTheirRule :=
  binaryRule_listedWords (op := .add) rfl fun _ _ _ _ => rfl

/-- Settles O33: the eight words are those listed for MUL, whose meaning is the common body with the
product. -/
theorem mulWordsFollowTheirRule : Obligations.MulWordsFollowTheirRule :=
  binaryRule_listedWords (op := .mul) rfl fun _ _ _ _ => rfl

end Sys2Proof.Machine
end

section
/-! SUPPORT. The rules of IN and OUT from the word on (41_io.md R90, R91). -/

namespace Sys2Proof.Machine

/-- Each exception of IN: the target's, or an empty queue once the target is known to be valid. -/
theorem inputBody_error {s : State} {r : FaultReason} :
    inputBody s = .error r ↔
      target 1 s = .error r ∨ ∃ k, targetAt s 1 = some k ∧ s.inq = [] ∧ r = .inputExhausted := by
  simp only [inputBody, bind_error, target_ok, takeInput_error, reduceCtorEq, and_false,
    exists_false, or_false]

/-- OUT raises exactly what its operand raises. -/
theorem outputBody_error {m1 : Mode} {s : State} {r : FaultReason} :
    outputBody m1 s = .error r ↔ resolve 1 m1 s = .error r := by
  simp only [outputBody, bind_error, reduceCtorEq, and_false, exists_false, or_false]

/-- A step that ends Faulted has taken a fault in the state before it, since no completed instruction of
a Running block leaves it Faulted (60_exceptions.md R115). -/
theorem step_faulted {s t : State} (h : step s = .next t) (ht : t.status = .faulted) :
    ∃ r, t = takeFault r s := by
  obtain ⟨hs, hfault | ⟨i, -, hc⟩⟩ := step_next h
  · exact hfault
  · obtain hsame | ⟨-, hhalt⟩ := completes_status hc
    · simp [hsame, hs] at ht
    · simp [hhalt] at ht

/-- Settles O34: the eight words are those listed for IN; each exception is one of its body's, and a step
that faults has kept the whole queue. -/
theorem inWordsFollowTheirRule : Obligations.InWordsFollowTheirRule := by
  intro s w hs hw hmem
  have hstep : step s = finish s (inputBody s) := step_listedWord (op := .inp) hs hw hmem
  have raises {r : FaultReason} (h : inputBody s = .error r) : StepFaults s r :=
    stepFaults_of_finish_error hstep h
  have target1 {r : FaultReason} (h : target 1 s = .error r) : StepFaults s r :=
    raises (inputBody_error.2 (.inl h))
  refine ⟨fun t ht hlt => ?_, fun hn => target1 (target_error.2 (.inl ⟨hn, rfl⟩)),
    fun p hp hn => target1 (target_error.2 (.inr ⟨p, hp, hn, rfl⟩)), fun t h ht => ?_⟩
  · have hk : targetAt s 1 = some t := targetAt_eq_some.2 ⟨ht, hlt⟩
    constructor
    · intro v rest hq
      rw [hstep, inputBody_ok.2 ⟨t, v, rest, hk, hq, rfl⟩, finish_ok]
      rfl
    · intro hq
      exact raises (inputBody_error.2 (.inr ⟨t, hk, hq, rfl⟩))
  · obtain ⟨r, rfl⟩ := step_faulted h ht
    exact takeFault_inq s r

/-- Settles O35: the eight words are those listed for OUT; its commit and its exceptions are those of its
one operand. -/
theorem outWordsFollowTheirRule : Obligations.OutWordsFollowTheirRule := by
  intro s w hs hw hmem m1
  have hstep : step s = finish s (outputBody m1 s) := step_listedWord (op := .out) hs hw hmem
  have source1 {r : FaultReason} (h : resolve 1 m1 s = .error r) : StepFaults s r :=
    stepFaults_of_finish_error hstep (outputBody_error.2 h)
  refine ⟨fun a ha => ?_, fun hn => source1 (resolve_error.2 (.inl ⟨hn, rfl⟩)),
    fun p hp hm hn => source1 (resolve_error.2 (.inr ⟨p, hp, hm, hn, rfl⟩))⟩
  rw [hstep, outputBody_ok.2 ⟨a, ha, rfl⟩, finish_ok]
  rfl

end Sys2Proof.Machine
end

section
/-! SUPPORT. The instruction pointer over one step (42_halt.md R101). -/

namespace Sys2Proof.Machine

/-- A completed instruction advances `ip` by its width and leaves the status, or it is HLT, which keeps
`ip` and ends the run (42_halt.md R100, R101). -/
theorem completes_ip {i : Instr} {s t : State} (h : Completes i s t) :
    (opcode i ≠ .hlt ∧ t.status = s.status ∧ t.ip = s.ip + width (opcode i)) ∨
      (opcode i = .hlt ∧ t.status = .halted ∧ t.ip = s.ip) := by
  cases i with
  | add m1 m2 m3 => obtain ⟨a, b, k, -, -, -, -, rfl⟩ := h; exact .inl ⟨nofun, rfl, rfl⟩
  | mul m1 m2 m3 => obtain ⟨a, b, k, -, -, -, -, rfl⟩ := h; exact .inl ⟨nofun, rfl, rfl⟩
  | inp m1 m2 m3 => obtain ⟨k, v, rest, -, -, rfl⟩ := h; exact .inl ⟨nofun, rfl, rfl⟩
  | out m1 m2 m3 => obtain ⟨a, -, rfl⟩ := h; exact .inl ⟨nofun, rfl, rfl⟩
  | hlt m1 m2 m3 => rw [show t = setHalted s from h]; exact .inr ⟨rfl, rfl, rfl⟩

/-- A step that stays Running has completed an instruction other than HLT and advanced `ip` by its
width. -/
theorem step_running {s t : State} (h : step s = .next t) (ht : t.status = .running) :
    ∃ i, fetchInstr s = .ok i ∧ opcode i ≠ .hlt ∧ t.ip = s.ip + width (opcode i) := by
  obtain ⟨-, ⟨r, rfl⟩ | ⟨i, hi, hc⟩⟩ := step_next h
  · simp at ht
  · obtain ⟨hop, -, hip⟩ | ⟨-, hhalt, -⟩ := completes_ip hc
    · exact ⟨i, hi, hop, hip⟩
    · simp [hhalt] at ht

/-- A step that ends the run keeps `ip`: it has taken a fault or completed HLT. -/
theorem step_ends_ip {s t : State} (h : step s = .next t) (ht : t.status ≠ .running) :
    t.ip = s.ip := by
  obtain ⟨hs, ⟨r, rfl⟩ | ⟨i, -, hc⟩⟩ := step_next h
  · exact takeFault_ip s r
  · obtain ⟨-, hsame, -⟩ | ⟨-, -, hip⟩ := completes_ip hc
    · exact absurd (hsame.trans hs) ht
    · exact hip

/-- Settles O42: a step that stays Running has completed an instruction other than HLT, and each of the
four has its own width; a step that ends the run keeps `ip`. -/
theorem pointerAdvancesByTheWidth : Obligations.PointerAdvancesByTheWidth := by
  refine fun s t h => ⟨fun ht => ?_, step_ends_ip h⟩
  obtain ⟨i, hi, hop, hip⟩ := step_running h ht
  obtain ⟨w, hw, hdec⟩ := fetchInstr_ok.1 hi
  cases i with
  | add m1 m2 m3 => exact ⟨w, m1, m2, m3, hw, .inl ⟨.inl hdec, hip⟩⟩
  | mul m1 m2 m3 => exact ⟨w, m1, m2, m3, hw, .inl ⟨.inr hdec, hip⟩⟩
  | inp m1 m2 m3 => exact ⟨w, m1, m2, m3, hw, .inr ⟨.inl hdec, hip⟩⟩
  | out m1 m2 m3 => exact ⟨w, m1, m2, m3, hw, .inr ⟨.inr hdec, hip⟩⟩
  | hlt m1 m2 m3 => exact absurd rfl hop

end Sys2Proof.Machine
end

section
/-! SUPPORT. The faults of a bad opcode and of an empty input queue (60_exceptions.md R111, R117). -/

namespace Sys2Proof.Machine

/-- A word that is negative, or whose two low digits are none of the five opcodes, is rejected for its
opcode, whatever its mode digits are (30_encoding.md R65). -/
theorem decode_badOpcode {w : Int} (h : w < 0 ∨ w % 100 ∉ ([1, 2, 3, 4, 99] : List Int)) :
    decode w = .error .invalidOpcode := by
  by_cases hneg : w < 0
  · simp [decode, hneg]
  · have hbad := h.resolve_left hneg
    have hnone : opcodeOf (w.toNat % 100) = none := by
      simp only [List.mem_cons, List.not_mem_nil, or_false] at hbad
      exact opcodeOf_eq_none.2 (by omega)
    simp [decode, hneg, hnone]

/-- A Running block whose word is rejected takes that fault, before any instruction runs
(70_reset_and_hazards.md R134). -/
theorem step_of_decode_error {s : State} {w : Int} {r : FaultReason} (hs : s.status = .running)
    (hw : cellAt s.mem s.ip = some w) (hdec : decode w = .error r) :
    step s = .next (faultedWith s r) := by
  rw [step_of_fetch_error hs (fetchInstr_error.2 (.inr ⟨w, hw, hdec⟩)), takeFault_eq]

/-- Settles O15: the decoder rejects the word, and taking that fault changes the status and the record
alone. -/
theorem badOpcodeFaultsBeforeOperands : Obligations.BadOpcodeFaultsBeforeOperands := by
  intro s w hs hw hbad
  refine ⟨_, step_of_decode_error hs hw (decode_badOpcode hbad), rfl, rfl, rfl, rfl, ?_⟩
  rw [← hw]
  rfl

/-- Settles O24: the target is valid, so the body of IN raises what the empty queue raises. -/
theorem inOnEmptyQueueFaults : Obligations.InOnEmptyQueueFaults := by
  intro s m1 m2 m3 t ht hlt hq
  have hbody : inputBody s = .error .inputExhausted :=
    inputBody_error.2 (.inr ⟨t, targetAt_eq_some.2 ⟨ht, hlt⟩, hq, rfl⟩)
  have hexec : exec (.inp m1 m2 m3) s = .next (takeFault .inputExhausted s) :=
    congrArg (finish s) hbody
  exact ⟨_, _, hexec, rfl, rfl, rfl⟩

end Sys2Proof.Machine
end

section
/-! SUPPORT. Decode and encode as inverses, the words that decode, and the order in which the others are
rejected (30_encoding.md sections 2, 4 and 5). -/

namespace Sys2Proof

/-- Settles O7: a word decodes to an opcode and three modes exactly when these are its decimal digits, and
the encoding is the number with these digits. -/
theorem decodeInvertsEncodeExactly : Obligations.DecodeInvertsEncodeExactly := by
  intro w i
  obtain ⟨op, m1, m2, m3, rfl⟩ := exists_instrOf i
  rw [decode_eq_instrOf, encode_instrOf, wordOf, Int.ofNat_eq_natCast]
  have hop := opcodeNumber_lt op
  have h1 := modeDigit_le m1
  have h2 := modeDigit_le m2
  have h3 := modeDigit_le m3
  constructor
  · rintro ⟨hw, eop, e1, e2, e3, hlt⟩
    omega
  · rintro rfl
    rw [Int.toNat_natCast]
    refine ⟨?_, ?_, ?_, ?_, ?_, ?_⟩ <;> omega

/-- An encoded instruction decodes to itself. -/
@[simp] theorem decode_encode (i : Instr) : decode (encode i) = .ok i :=
  (decodeInvertsEncodeExactly _ _).2 rfl

/-- The word of an opcode and three modes decodes to their instruction. -/
@[simp] theorem decode_wordOf (op : Opcode) (m1 m2 m3 : Mode) :
    decode (wordOf op m1 m2 m3) = .ok (instrOf op m1 m2 m3) := by
  rw [← encode_instrOf, decode_encode]

/-- A word that decodes is the encoding of what it decodes to. -/
theorem eq_encode_of_decode {w : Int} {i : Instr} (h : decode w = .ok i) : w = encode i :=
  (decodeInvertsEncodeExactly w i).1 h

/-- The table lists the word of every operation and every three modes. -/
theorem wordOf_mem_listedWords (op : Opcode) (m1 m2 m3 : Mode) :
    wordOf op m1 m2 m3 ∈ Machine.listedWords op := by
  cases op <;> cases m1 <;> cases m2 <;> cases m3 <;> decide

/-- Settles O8: a word that decodes is the encoding of its fields, which the table lists, and the column
formula is the encoding. -/
theorem fortyWordsDecodeAndNoOther : Obligations.FortyWordsDecodeAndNoOther := by
  refine ⟨fun w op => ⟨?_, fun hw => ⟨_, _, _, Machine.decode_listedWord op w hw⟩⟩, decode_wordOf⟩
  rintro ⟨m1, m2, m3, h⟩
  rw [eq_encode_of_decode h, encode_instrOf]
  exact wordOf_mem_listedWords op m1 m2 m3

/-- The digits that are a mode's. -/
theorem exists_eq_modeDigit {d : Nat} : (∃ m, d = modeDigit m) ↔ d ≤ 1 := by
  simp only [← modeOf_eq_some, ← Option.isSome_iff_exists, ← Option.ne_none_iff_isSome, ne_eq,
    modeOf_eq_none, not_lt]

/-- The numbers that are an opcode's. -/
theorem exists_eq_opcodeNumber {n : Nat} :
    (∃ op, n = opcodeNumber op) ↔ n ∈ [1, 2, 3, 4, 99] := by
  constructor
  · rintro ⟨op, rfl⟩
    cases op <;> decide
  · simp only [List.mem_cons, List.not_mem_nil, or_false]
    rintro (rfl | rfl | rfl | rfl | rfl)
    · exact ⟨.add, rfl⟩
    · exact ⟨.mul, rfl⟩
    · exact ⟨.inp, rfl⟩
    · exact ⟨.out, rfl⟩
    · exact ⟨.hlt, rfl⟩

/-- The words that decode to an operation, said by their digits. -/
theorem exists_decode_opcode {w : Int} {op : Opcode} :
    (∃ i, decode w = .ok i ∧ opcode i = op) ↔
      0 ≤ w ∧ w.toNat % 100 = opcodeNumber op ∧ w.toNat / 100 % 10 ≤ 1 ∧
        w.toNat / 1000 % 10 ≤ 1 ∧ w.toNat / 10000 % 10 ≤ 1 ∧ w.toNat < 100000 := by
  constructor
  · rintro ⟨i, h, rfl⟩
    obtain ⟨op, m1, m2, m3, rfl⟩ := exists_instrOf i
    obtain ⟨hw, hop, h1, h2, h3, hlt⟩ := decode_eq_instrOf.1 h
    rw [opcode_instrOf]
    exact ⟨hw, hop, h1 ▸ modeDigit_le m1, h2 ▸ modeDigit_le m2, h3 ▸ modeDigit_le m3, hlt⟩
  · rintro ⟨hw, hop, h1, h2, h3, hlt⟩
    obtain ⟨m1, e1⟩ := exists_eq_modeDigit.2 h1
    obtain ⟨m2, e2⟩ := exists_eq_modeDigit.2 h2
    obtain ⟨m3, e3⟩ := exists_eq_modeDigit.2 h3
    exact ⟨_, decode_eq_instrOf.2 ⟨hw, hop, e1, e2, e3, hlt⟩, opcode_instrOf op m1 m2 m3⟩

/-- The numbers of the table's rows are those of the encoder. -/
theorem opcodeTable_numbers : ∀ row ∈ opcodeTable,
    row.modulus = 100 ∧ row.value = opcodeNumber row.opcode ∧ row.width = width row.opcode := by
  decide

/-- Settles O9: a row's match rule asks for the digits of a word that decodes to its operation. -/
theorem tableRowsSelectWhatDecodes : Obligations.TableRowsSelectWhatDecodes := by
  intro row hrow
  obtain ⟨hmod, hval, hwidth⟩ := opcodeTable_numbers row hrow
  refine ⟨hwidth, fun w => ?_⟩
  simp only [exists_decode_opcode, TableRow.selects, hmod, hval, Bool.and_eq_true,
    decide_eq_true_eq, beq_iff_eq, and_assoc]

/-- A mode field succeeds exactly where its digit is a mode's, whatever is asked of that mode. -/
theorem exists_modeField_ok {k : Nat} {d : ModeDigit} {n : Nat} {P : Prop} :
    (∃ m, modeField k d n = .ok m ∧ P) ↔ n / 10 ^ (k + 1) % 10 ≤ 1 ∧ P := by
  simp only [exists_and_right, modeField_ok, exists_eq_modeDigit]

/-- Each rejection of the mode digits, with what must have passed before it is checked
(30_encoding.md R65). -/
theorem decodeModes_error {op : Opcode} {n : Nat} {r : FaultReason} :
    decodeModes op n = .error r ↔
      (1 < n / 100 % 10 ∧ r = .invalidMode .param1) ∨ (n / 100 % 10 ≤ 1 ∧
        ((1 < n / 1000 % 10 ∧ r = .invalidMode .param2) ∨ (n / 1000 % 10 ≤ 1 ∧
          ((1 < n / 10000 % 10 ∧ r = .invalidMode .param3) ∨ (n / 10000 % 10 ≤ 1 ∧
            n / 100000 ≠ 0 ∧ r = .invalidMode .high))))) := by
  have high (m1 m2 m3 : Mode) :
      (if n / 100000 ≠ 0 then .error (.invalidMode .high) else .ok (instrOf op m1 m2 m3) :
        Except FaultReason Instr) = .error r ↔ n / 100000 ≠ 0 ∧ r = .invalidMode .high := by
    split <;> simp_all [eq_comm]
  simp only [decodeModes, Machine.bind_error, modeField_error, high, exists_modeField_ok,
    Nat.reduceAdd, Nat.reducePow]

/-- A word whose low digits are an opcode is decoded or rejected by its mode digits. -/
theorem decode_of_opcode {n : Nat} {op : Opcode} (h : n % 100 = opcodeNumber op) :
    decode (n : Int) = decodeModes op n := by
  simp [decode, h]

/-- Settles O11: with a valid opcode the four digit checks reject in their order, and where none does the
digits are those of an instruction. -/
theorem decodeChecksInOrder : Obligations.DecodeChecksInOrder := by
  intro w
  refine ⟨fun hneg => Machine.decode_badOpcode (.inl hneg),
    fun _ hbad => Machine.decode_badOpcode (.inr hbad), fun hw hgood => ?_⟩
  lift w to ℕ using hw
  obtain ⟨op, hop⟩ : ∃ op, w % 100 = opcodeNumber op := by
    rw [exists_eq_opcodeNumber]
    simp only [List.mem_cons, List.not_mem_nil, or_false] at hgood ⊢
    omega
  rw [decode_of_opcode hop]
  simp only [decodeModes_error, reduceCtorEq, and_false, FaultReason.invalidMode.injEq, and_true,
    or_false, false_or]
  refine ⟨fun h1 => ?_, fun h1 h2 => ?_, fun h1 h2 h3 => ?_, fun h1 h2 h3 h4 => ?_,
    fun h1 h2 h3 h4 => ?_⟩
  · omega
  · omega
  · omega
  · omega
  · obtain ⟨m1, e1⟩ := exists_eq_modeDigit.2 (show w / 100 % 10 ≤ 1 by omega)
    obtain ⟨m2, e2⟩ := exists_eq_modeDigit.2 (show w / 1000 % 10 ≤ 1 by omega)
    obtain ⟨m3, e3⟩ := exists_eq_modeDigit.2 (show w / 10000 % 10 ≤ 1 by omega)
    refine ⟨op, m1, m2, m3, decodeModes_ok.2 ⟨m1, m2, m3, e1, e2, e3, by omega, rfl⟩, ?_⟩
    omega

/-- Settles O12: the six words, each decoded. -/
theorem writtenOutWordsDecode : Obligations.WrittenOutWordsDecode := by
  refine ⟨?_, ?_, ?_, ?_, ?_, ?_⟩ <;> decide

/-- A word with a valid opcode and a bad mode digit, or a digit above the modes, is rejected for a
digit. -/
theorem decode_badMode {w : Int} (hw : 0 ≤ w) (hop : w % 100 ∈ ([1, 2, 3, 4, 99] : List Int))
    (hbad : 1 < w / 100 % 10 ∨ 1 < w / 1000 % 10 ∨ 1 < w / 10000 % 10 ∨ 100000 ≤ w) :
    ∃ d, decode w = .error (.invalidMode d) := by
  obtain ⟨-, -, hmodes⟩ := decodeChecksInOrder w
  obtain ⟨p1, p2, p3, high, -⟩ := hmodes hw hop
  by_cases h1 : 1 < w / 100 % 10
  · exact ⟨_, p1 h1⟩
  by_cases h2 : 1 < w / 1000 % 10
  · exact ⟨_, p2 (by omega) h2⟩
  by_cases h3 : 1 < w / 10000 % 10
  · exact ⟨_, p3 (by omega) (by omega) h3⟩
  · exact ⟨_, high (by omega) (by omega) (by omega) (by omega)⟩

end Sys2Proof
end

section
/-! SUPPORT. The step as a computation that commits or raises, and then ends (70_reset_and_hazards.md
R134). -/

namespace Sys2Proof.Machine

/-- The meaning of an instruction before its end: its commit or the fault it raises. -/
def execBody (i : Instr) (s : State) : Except FaultReason State :=
  match i with
  | .add m1 m2 _ => binaryBody .add (fun a b => a + b) m1 m2 s
  | .mul m1 m2 _ => binaryBody .mul (fun a b => a * b) m1 m2 s
  | .inp _ _ _ => inputBody s
  | .out m1 _ _ => outputBody m1 s
  | .hlt _ _ _ => .ok (setHalted s)

/-- What a step of a Running block does before its end: fetch, then the instruction. -/
def stepBody (s : State) : Except FaultReason State := fetchInstr s >>= fun i => execBody i s

/-- Every meaning is its body and then the common end. -/
theorem exec_eq_finish (i : Instr) (s : State) : exec i s = finish s (execBody i s) := by
  cases i <;> rfl

/-- The step of a Running block is its body and then the common end. -/
theorem step_eq_finish {s : State} (hs : s.status = .running) : step s = finish s (stepBody s) := by
  cases hf : fetchInstr s with
  | error r => simp [step_of_fetch_error hs hf, stepBody, hf, bind, Except.bind]
  | ok i => simp [step_of_fetch_ok hs hf, stepBody, hf, bind, Except.bind, exec_eq_finish]

/-- A body commits exactly the completed effect. -/
theorem execBody_ok {i : Instr} {s t : State} : execBody i s = .ok t ↔ Completes i s t := by
  cases i with
  | add m1 m2 m3 => exact binaryBody_ok
  | mul m1 m2 m3 => exact binaryBody_ok
  | inp m1 m2 m3 => exact inputBody_ok
  | out m1 m2 m3 => exact outputBody_ok
  | hlt m1 m2 m3 => simp [execBody, Completes, eq_comm]

/-- A step commits exactly the completed effect of the instruction it fetched. -/
theorem stepBody_ok {s t : State} :
    stepBody s = .ok t ↔ ∃ i, fetchInstr s = .ok i ∧ Completes i s t := by
  simp only [stepBody, bind_ok, execBody_ok]

/-- Inversion of `step` that keeps where a fault was raised. -/
theorem step_next_body {s t : State} (h : step s = .next t) :
    stepBody s = .ok t ∨ ∃ r, stepBody s = .error r ∧ t = takeFault r s := by
  obtain ⟨hs, -⟩ := step_next h
  rw [step_eq_finish hs] at h
  obtain ⟨t', hb, e⟩ | ⟨r, hb, e⟩ := finish_cases s (stepBody s) <;>
    obtain rfl := Host.Outcome.next.inj (e.symm.trans h)
  · exact .inl hb
  · exact .inr ⟨r, hb, rfl⟩

/-- A step that commits does not leave the block Faulted. -/
theorem stepBody_ok_status {s t : State} (hs : s.status = .running) (h : stepBody s = .ok t) :
    t.status ≠ .faulted := by
  obtain ⟨i, -, hc⟩ := stepBody_ok.1 h
  obtain hsame | ⟨-, hhalt⟩ := completes_status hc
  · simp [hsame, hs]
  · simp [hhalt]

/-- Settles O13: the fetch succeeds with the decoded instruction. -/
theorem stepRunsTheDecodedInstruction : Obligations.StepRunsTheDecodedInstruction :=
  fun _ w _ hs hw hdec => step_of_fetch_ok hs (fetchInstr_ok.2 ⟨w, hw, hdec⟩)

/-- Settles O14: outside memory the fetch itself raises; inside, the word it reads is decoded. -/
theorem fetchChecksThePointerThenReads : Obligations.FetchChecksThePointerThenReads := by
  intro s hs
  constructor
  · intro hout
    have hnone : cellAt s.mem s.ip = none := cellAt_eq_none_iff.2 (.inr (by omega))
    rw [step_of_fetch_error hs (fetchInstr_error.2 (.inl ⟨hnone, rfl⟩)), takeFault_eq, faultedWith,
      hnone]
  · intro hin
    obtain ⟨w, hw⟩ := Option.isSome_iff_exists.1
      ((cellAt_isSome_iff (m := s.mem) (a := s.ip)).2 (by omega))
    refine ⟨w, hw, fun i hdec => stepRunsTheDecodedInstruction s w i hs hw hdec, fun r hdec => ?_⟩
    rw [step_of_decode_error hs hw hdec, faultedWith, hw]

/-- Settles O16: the decoder rejects the word for a digit, and taking that fault changes the status and
the record alone. -/
theorem badModeFaultsBeforeOperands : Obligations.BadModeFaultsBeforeOperands := by
  intro s w hs hw hpos hop hbad
  obtain ⟨d, hdec⟩ := decode_badMode hpos hop hbad
  refine ⟨d, _, step_of_decode_error hs hw hdec, rfl, rfl, rfl, rfl, ?_⟩
  rw [← hw]
  rfl

/-- Settles O17: whatever the body of the step answers, its end is a next state. -/
theorem runningBlockAlwaysSteps : Obligations.RunningBlockAlwaysSteps := by
  intro s hs
  rw [step_eq_finish hs]
  obtain ⟨t, -, e⟩ | ⟨r, -, e⟩ := finish_cases s (stepBody s)
  · exact ⟨t, e⟩
  · exact ⟨_, e⟩

end Sys2Proof.Machine
end

section
/-! SUPPORT. Reset and LOAD (70_reset_and_hazards.md section 1). -/

namespace Sys2Proof.Machine

/-- The start of a run of a program on an input (R130). -/
def loadedState (program input : List Word) (s : State) : State :=
  { cfg := s.cfg, mem := program, ip := 0, status := .running, fault := none, inq := input, outq := [] }

/-- LOAD accepts what fits, and then leaves the start of the run (R130, R131). -/
theorem load_next {program input : List Word} {s t : State} :
    load program input s = .next t ↔
      (∀ v ∈ program ++ input, inRange s.cfg.wordBits v = true) ∧
        lengthFits s.cfg.wordBits program.length = true ∧ t = loadedState program input s := by
  rw [← List.all_eq_true, load]
  cases (program ++ input).all (inRange s.cfg.wordBits) <;>
    cases lengthFits s.cfg.wordBits program.length <;> simp [loadedState, eq_comm]

/-- LOAD refuses everything else (R131). -/
theorem load_refused {program input : List Word} {s : State} :
    (∃ r, load program input s = .refused r) ↔
      (∃ v ∈ program ++ input, inRange s.cfg.wordBits v = false) ∨
        lengthFits s.cfg.wordBits program.length = false := by
  have hall : (program ++ input).all (inRange s.cfg.wordBits) = false ↔
      ∃ v ∈ program ++ input, inRange s.cfg.wordBits v = false := by
    simp only [List.all_eq_false, Bool.not_eq_true]
  rw [← hall, load]
  cases (program ++ input).all (inRange s.cfg.wordBits) <;>
    cases lengthFits s.cfg.wordBits program.length <;> simp

/-- The greatest length of a finite width (00_scope.md R7). -/
theorem lengthFits_bits {n k : Nat} : lengthFits (.bits n) k = true ↔ k ≤ 2 ^ (n - 1) := by
  simp [lengthFits]

/-- The empty program has a length that every width allows (R131). -/
theorem lengthFits_zero (b : WordBits) : lengthFits b 0 = true := by
  cases b <;> simp [lengthFits]

/-- What does not fit a finite width, said with the two bounds. -/
theorem inRange_bits_eq_false {n : Nat} {v : Int} :
    inRange (.bits n) v = false ↔ v < -(2 ^ (n - 1) : Int) ∨ 2 ^ (n - 1) - 1 < v := by
  rw [← Bool.not_eq_true, inRange_bits]
  omega

/-- Settles O1: the fields of the reset state. -/
theorem resetHoldsTheGivenValues : Obligations.ResetHoldsTheGivenValues := ⟨rfl, rfl, rfl, rfl⟩

/-- Settles O2: with INF everything fits, and with a finite width the bounds say that it does. -/
theorem loadStartsARun : Obligations.LoadStartsARun := by
  intro program input s hfit
  have hloads : load program input s = .next (loadedState program input s) := by
    rw [load_next]
    obtain hb | ⟨n, hb, hlen, hval⟩ := hfit
    · rw [hb]
      exact ⟨fun v _ => inRange_inf v, rfl, rfl⟩
    · rw [hb]
      exact ⟨fun v hv => inRange_bits.2 (hval v hv), lengthFits_bits.2 hlen, rfl⟩
  exact ⟨_, hloads, rfl, rfl, rfl, rfl, rfl, rfl⟩

/-- Settles O3: each bound exceeded is a refusal; the empty program is accepted and its first fetch is
outside memory. -/
theorem loadRefusesWhatDoesNotFit : Obligations.LoadRefusesWhatDoesNotFit := by
  constructor
  · intro program input s n hb hbad
    rw [load_refused, hb]
    obtain hlen | ⟨v, hv, hout⟩ := hbad
    · exact .inr (by rw [← Bool.not_eq_true, lengthFits_bits]; omega)
    · exact .inl ⟨v, hv, inRange_bits_eq_false.2 hout⟩
  · intro input s hval
    obtain ⟨hfetch, -⟩ := fetchChecksThePointerThenReads (loadedState [] input s) rfl
    exact ⟨_, _, load_next.2 ⟨hval, lengthFits_zero _, rfl⟩, hfetch (Nat.le_refl 0), rfl, rfl⟩

/-- Settles O4: every field of the reset state, checked. -/
theorem resetMeetsTheInvariant : Obligations.ResetMeetsTheInvariant where
  config := rfl
  memory := reset_mem_wf
  pointer := by decide
  input := by decide
  output := rfl
  report := rfl

/-- Settles O5: what LOAD has checked of the program and the input is what the invariant asks of memory and
the input queue. -/
theorem loadMeetsTheInvariant : Obligations.LoadMeetsTheInvariant := by
  intro program input s t hcfg h
  obtain ⟨hval, hlen, rfl⟩ := load_next.1 h
  obtain ⟨hprogram, hinput⟩ := List.forall_mem_append.1 hval
  exact
    { config := hcfg
      memory := by
        rw [Memory.wf, Bool.and_eq_true, List.all_eq_true]
        exact ⟨hprogram, hlen⟩
      pointer := Nat.zero_le _
      input := List.all_eq_true.2 hinput
      output := rfl
      report := rfl }

end Sys2Proof.Machine
end

section
/-! SUPPORT. The flat priority list against the step (60_exceptions.md R119). Each computation the step is
built from reports a list of conditions, and running one after another reports the lists one after the
other. -/

namespace Sys2Proof.Machine

/-- The reason of the first condition of a list that holds. -/
def firstOf (l : List (Bool × FaultReason)) : Option FaultReason := (l.find? (·.1)).map (·.2)

/-- The reason a computation raises, if it raises one. -/
def raised {α : Type} : Except FaultReason α → Option FaultReason
  | .ok _ => none
  | .error r => some r

/-- The computation raises exactly the reason of the first condition of the list that holds. -/
def Reports {α : Type} (l : List (Bool × FaultReason)) (x : Except FaultReason α) : Prop :=
  firstOf l = raised x

theorem firstOf_append (l l' : List (Bool × FaultReason)) :
    firstOf (l ++ l') = (firstOf l).or (firstOf l') := by
  simp only [firstOf, List.find?_append]
  cases l.find? (·.1) <;> rfl

/-- A computation that raises nothing reports the empty list. -/
theorem reports_ok {α : Type} (a : α) : Reports [] (.ok a) := rfl

/-- A computation with one check reports that check. -/
theorem reports_check {α : Type} {c : Bool} {r : FaultReason} {x : Except FaultReason α}
    (hfails : c = true → x = .error r) (hpasses : c = false → ∃ a, x = .ok a) :
    Reports [(c, r)] x := by
  cases c with
  | true => rw [hfails rfl]; rfl
  | false => obtain ⟨a, rfl⟩ := hpasses rfl; rfl

/-- Running one computation after another reports the one list and then the other. -/
theorem Reports.bind {α β : Type} {l l' : List (Bool × FaultReason)} {x : Except FaultReason α}
    {f : α → Except FaultReason β} (h : Reports l x) (h' : ∀ a, x = .ok a → Reports l' (f a)) :
    Reports (l ++ l') (x >>= f) := by
  unfold Reports at *
  rw [firstOf_append, h]
  cases x with
  | ok a => exact h' a rfl
  | error r => rfl

/-- What follows without a check of its own adds nothing to the list. -/
theorem Reports.map {α β : Type} {l : List (Bool × FaultReason)} {x : Except FaultReason α}
    (h : Reports l x) (f : α → β) : Reports l (x >>= fun a => .ok (f a)) := by
  rw [← List.append_nil l]
  exact h.bind fun a _ => reports_ok (f a)

/-! Items 2 to 5: the decoder. -/

/-- The conditions of the decoder, first to last. -/
def decodeChecks (w : Int) : List (Bool × FaultReason) :=
  [ (decide (w < 0), .invalidOpcode),
    (!([1, 2, 3, 4, 99].contains (w.toNat % 100)), .invalidOpcode),
    (decide (1 < w.toNat / 100 % 10), .invalidMode .param1),
    (decide (1 < w.toNat / 1000 % 10), .invalidMode .param2),
    (decide (1 < w.toNat / 10000 % 10), .invalidMode .param3),
    (decide (100000 ≤ w), .invalidMode .high) ]

theorem modeField_reports (k : Nat) (d : ModeDigit) (n : Nat) :
    Reports [(decide (1 < n / 10 ^ (k + 1) % 10), .invalidMode d)] (modeField k d n) := by
  refine reports_check (fun h => ?_) (fun h => ?_)
  · exact modeField_error.2 ⟨of_decide_eq_true h, rfl⟩
  · simp only [modeField_ok, exists_eq_modeDigit]
    exact Nat.le_of_not_lt (of_decide_eq_false h)

theorem decodeModes_reports (op : Opcode) (n : Nat) :
    Reports
      [ (decide (1 < n / 100 % 10), .invalidMode .param1),
        (decide (1 < n / 1000 % 10), .invalidMode .param2),
        (decide (1 < n / 10000 % 10), .invalidMode .param3),
        (decide (100000 ≤ (n : Int)), .invalidMode .high) ] (decodeModes op n) := by
  refine (modeField_reports 1 .param1 n).bind fun m1 _ =>
    (modeField_reports 2 .param2 n).bind fun m2 _ =>
      (modeField_reports 3 .param3 n).bind fun m3 _ => reports_check (fun h => ?_) (fun h => ?_)
  · have hhigh : n / 100000 ≠ 0 := by have := of_decide_eq_true h; omega
    exact if_pos hhigh
  · have hlow : n / 100000 = 0 := by have := of_decide_eq_false h; omega
    exact ⟨_, if_neg (not_not.2 hlow)⟩

theorem decode_reports (w : Int) : Reports (decodeChecks w) (decode w) := by
  by_cases hneg : w < 0
  · simp [Reports, decodeChecks, firstOf, decode, hneg, raised]
  · lift w to ℕ using not_lt.1 hneg
    by_cases hop : ∃ op, w % 100 = opcodeNumber op
    · have hmem := exists_eq_opcodeNumber.1 hop
      obtain ⟨op, hop⟩ := hop
      have hmodes := decodeModes_reports op w
      rw [← decode_of_opcode hop] at hmodes
      have hcontains : [1, 2, 3, 4, 99].contains (w % 100) = true := List.contains_iff_mem.2 hmem
      simpa only [Reports, firstOf, decodeChecks, Int.toNat_natCast, hcontains, hneg, Bool.not_true,
        decide_false, Bool.false_eq_true, not_false_eq_true, List.find?_cons_of_neg] using hmodes
    · have hnone : opcodeOf (w % 100) = none := by
        rw [← Option.not_isSome_iff_eq_none, Option.isSome_iff_exists]
        simpa only [opcodeOf_eq_some] using hop
      have hcontains : [1, 2, 3, 4, 99].contains (w % 100) = false := by
        rw [← Bool.not_eq_true, List.contains_iff_mem, ← exists_eq_opcodeNumber]
        exact hop
      simp only [Reports, firstOf, decodeChecks, decode, hneg, hnone, hcontains, raised,
        Int.toNat_natCast, decide_false, Bool.false_eq_true, not_false_eq_true, Bool.not_false,
        List.find?_cons_of_neg, List.find?_cons_of_pos, Option.map_some, if_false]

/-! Item 6: parameter cells and the addresses in them. -/

/-- The content of a cell that is there. -/
theorem cellOrZero_eq {s : State} {a v : Int} (h : cellAt s.mem a = some v) : cellOrZero s a = v := by
  rw [cellOrZero, h]
  rfl

/-- A read reports that its address is outside memory, however that is said. -/
theorem memRead_reports {m : Memory} {a : Int} {c : Bool}
    (hc : c = true ↔ a < 0 ∨ (m.length : Int) ≤ a) : Reports [(c, .outOfBounds a)] (memRead m a) := by
  refine reports_check (fun h => ?_) (fun h => ?_)
  · exact memRead_error.2 ⟨cellAt_eq_none_iff.2 (hc.1 h), rfl⟩
  · simp only [memRead_ok, ← Option.isSome_iff_exists, ← Option.ne_none_iff_isSome, ne_eq,
      cellAt_eq_none_iff, ← hc, h, Bool.false_eq_true, not_false_eq_true]

theorem param_reports (k : Nat) (s : State) :
    Reports [(decide (s.mem.length ≤ s.ip + k), .outOfBounds (s.ip + k))] (param k s) :=
  memRead_reports (by rw [decide_eq_true_iff]; omega)

theorem resolve_reports (k : Nat) (m : Mode) (s : State) :
    Reports (sourceChecks s k (modeDigit m)) (resolve k m s) := by
  refine (param_reports k s).bind fun p hp => ?_
  rw [cellOrZero_eq (memRead_ok.1 hp)]
  cases m with
  | position => exact memRead_reports (by simp [modeDigit])
  | immediate => exact reports_check nofun fun _ => ⟨p, rfl⟩

theorem target_reports (k : Nat) (s : State) : Reports (targetChecks s k) (target k s) := by
  refine (param_reports k s).bind fun p hp => ?_
  rw [cellOrZero_eq (memRead_ok.1 hp)]
  refine reports_check (fun h => if_neg ?_) (fun h => ⟨_, if_pos ?_⟩)
  · rw [validAddr_iff]
    simp only [Bool.or_eq_true, decide_eq_true_eq] at h
    omega
  · rw [validAddr_iff]
    simp only [Bool.or_eq_false_iff, decide_eq_false_iff_not] at h
    omega

/-- The value of a source that is there. -/
theorem sourceValue_eq {k : Nat} {m : Mode} {s : State} {a : Int} (h : resolve k m s = .ok a) :
    sourceValue s k (modeDigit m) = a := by
  have hop := resolve_ok.1 h
  cases m with
  | immediate => exact cellOrZero_eq hop
  | position =>
    obtain ⟨p, hp, ha⟩ := Option.bind_eq_some_iff.1 hop
    show cellOrZero s (cellOrZero s (s.ip + k)) = a
    rw [cellOrZero_eq hp, cellOrZero_eq ha]

/-! Items 7 and 8, and the instructions. -/

theorem checkResult_reports (s : State) (r : Int) :
    Reports [(!inRange s.cfg.wordBits r, .overflow)] (checkResult s r) := by
  refine reports_check (fun h => ?_) (fun h => ?_)
  · exact checkResult_error.2 ⟨by simpa using h, rfl⟩
  · exact ⟨r, checkResult_ok.2 ⟨by simpa using h, rfl⟩⟩

theorem takeInput_reports (s : State) :
    Reports [(s.inq.isEmpty, .inputExhausted)] (takeInput s) := by
  unfold takeInput
  cases s.inq <;> rfl

/-- The common body of ADD and MUL reports its sources, its target and then its result. -/
theorem binaryBody_reports (op : Opcode) (f : Int → Int → Int) (m1 m2 : Mode) (s : State) :
    Reports
      (sourceChecks s 1 (modeDigit m1) ++ sourceChecks s 2 (modeDigit m2) ++ targetChecks s 3 ++
        [(!inRange s.cfg.wordBits
          (f (sourceValue s 1 (modeDigit m1)) (sourceValue s 2 (modeDigit m2))), .overflow)])
      (binaryBody op f m1 m2 s) := by
  rw [List.append_assoc, List.append_assoc]
  refine (resolve_reports 1 m1 s).bind fun a ha => (resolve_reports 2 m2 s).bind fun b hb =>
    (target_reports 3 s).bind fun t _ => ?_
  rw [sourceValue_eq ha, sourceValue_eq hb]
  exact (checkResult_reports s (f a b)).map _

/-- Each instruction reports the operand checks of its opcode and modes. -/
theorem execBody_reports (op : Opcode) (m1 m2 m3 : Mode) (s : State) :
    Reports (operandChecks s (opcodeNumber op) (modeDigit m1) (modeDigit m2))
      (execBody (instrOf op m1 m2 m3) s) := by
  cases op with
  | add => exact binaryBody_reports .add (fun a b => a + b) m1 m2 s
  | mul => exact binaryBody_reports .mul (fun a b => a * b) m1 m2 s
  | inp =>
    exact (target_reports 1 s).bind fun t _ =>
      (takeInput_reports s).map fun p => advance .inp (writeCell t p.1 p.2)
  | out => exact (resolve_reports 1 m1 s).map fun a => advance .out (emit a s)
  | hlt => exact reports_ok _

/-- The fetch reports the pointer and then the decoder's conditions. -/
theorem fetchInstr_reports (s : State) :
    Reports ((decide (s.mem.length ≤ s.ip), .outOfBounds s.ip) ::
      decodeChecks (cellOrZero s s.ip)) (fetchInstr s) := by
  have hread : Reports [(decide (s.mem.length ≤ s.ip), .outOfBounds s.ip)] (memRead s.mem s.ip) :=
    memRead_reports (by rw [decide_eq_true_iff]; omega)
  refine hread.bind fun w hw => ?_
  rw [cellOrZero_eq (memRead_ok.1 hw)]
  exact decode_reports w

/-- The whole list is that of the fetch and then that of the fetched instruction. -/
theorem stepBody_reports (s : State) : Reports (faultChecks s) (stepBody s) := by
  refine (fetchInstr_reports s).bind fun i hi => ?_
  obtain ⟨w, hw, hdec⟩ := fetchInstr_ok.1 hi
  obtain ⟨op, m1, m2, m3, rfl⟩ := exists_instrOf i
  obtain ⟨-, hop, h1, h2, -, -⟩ := decode_eq_instrOf.1 hdec
  rw [cellOrZero_eq hw, hop, h1, h2]
  exact execBody_reports op m1 m2 m3 s

/-- Settles O39: the step's body raises what the list reports first, and where it raises nothing it
commits. -/
theorem firstConditionOfTheListIsReported : Obligations.FirstConditionOfTheListIsReported := by
  intro s hs
  have hreports : firstFault s = raised (stepBody s) := stepBody_reports s
  rw [hreports, step_eq_finish hs]
  cases hb : stepBody s with
  | error r => exact congrArg _ (takeFault_eq s r)
  | ok t =>
    obtain ⟨i, -, hc⟩ := stepBody_ok.1 hb
    exact ⟨t, rfl, stepBody_ok_status hs hb, completes_fault hc⟩

end Sys2Proof.Machine
end

section
/-! SUPPORT. What a completed instruction leaves unchanged and what it keeps well formed (10_state.md
sections 3 to 6). -/

namespace Sys2Proof.Machine

/-- A completed instruction appends to the output the value `emittedValue` names, if it names one. -/
theorem completes_outq {i : Instr} {s t : State} (h : Completes i s t) :
    t.outq = s.outq ++ (emittedValue (s, i)).toList := by
  cases i with
  | add m1 m2 m3 => obtain ⟨a, b, k, -, -, -, -, rfl⟩ := h; simp [emittedValue]
  | mul m1 m2 m3 => obtain ⟨a, b, k, -, -, -, -, rfl⟩ := h; simp [emittedValue]
  | inp m1 m2 m3 => obtain ⟨k, v, rest, -, -, rfl⟩ := h; simp [emittedValue]
  | out m1 m2 m3 => obtain ⟨a, ha, rfl⟩ := h; simp [emittedValue, ha]
  | hlt m1 m2 m3 => rw [show t = setHalted s from h]; simp [emittedValue]

/-- A completed instruction takes from the input the value `consumedValue` names, if it names one. -/
theorem completes_inq {i : Instr} {s t : State} (h : Completes i s t) :
    s.inq = (consumedValue (s, i)).toList ++ t.inq := by
  cases i with
  | add m1 m2 m3 => obtain ⟨a, b, k, -, -, -, -, rfl⟩ := h; simp [consumedValue]
  | mul m1 m2 m3 => obtain ⟨a, b, k, -, -, -, -, rfl⟩ := h; simp [consumedValue]
  | inp m1 m2 m3 => obtain ⟨k, v, rest, -, hq, rfl⟩ := h; simp [consumedValue, hq]
  | out m1 m2 m3 => obtain ⟨a, -, rfl⟩ := h; simp [consumedValue]
  | hlt m1 m2 m3 => rw [show t = setHalted s from h]; simp [consumedValue]

/-- Among completed instructions it is OUT that emits a value. -/
theorem completes_emits {i : Instr} {s t : State} (h : Completes i s t) :
    (emittedValue (s, i)).isSome = true ↔ opcode i = .out := by
  cases i with
  | out m1 m2 m3 => obtain ⟨a, ha, -⟩ := h; simp [emittedValue, ha, opcode]
  | _ => simp [emittedValue, opcode]

/-- Among completed instructions it is IN that takes a value. -/
theorem completes_consumes {i : Instr} {s t : State} (h : Completes i s t) :
    (consumedValue (s, i)).isSome = true ↔ opcode i = .inp := by
  cases i with
  | inp m1 m2 m3 => obtain ⟨k, v, rest, -, hq, -⟩ := h; simp [consumedValue, hq, opcode]
  | _ => simp [consumedValue, opcode]

/-- Only ADD, MUL and IN name a cell to write. -/
theorem opcode_of_storedCell {i : Instr} {s : State} {c : Nat × Int}
    (h : storedCell (s, i) = some c) : opcode i ∈ [Opcode.add, .mul, .inp] := by
  cases i with
  | add m1 m2 m3 => simp [opcode]
  | mul m1 m2 m3 => simp [opcode]
  | inp m1 m2 m3 => simp [opcode]
  | out m1 m2 m3 => cases h
  | hlt m1 m2 m3 => cases h

/-- A completed instruction keeps the parameters. -/
theorem completes_cfg {i : Instr} {s t : State} (h : Completes i s t) : t.cfg = s.cfg := by
  cases i with
  | add m1 m2 m3 => obtain ⟨a, b, k, -, -, -, -, rfl⟩ := h; rfl
  | mul m1 m2 m3 => obtain ⟨a, b, k, -, -, -, -, rfl⟩ := h; rfl
  | inp m1 m2 m3 => obtain ⟨k, v, rest, -, -, rfl⟩ := h; rfl
  | out m1 m2 m3 => obtain ⟨a, -, rfl⟩ := h; rfl
  | hlt m1 m2 m3 => rw [show t = setHalted s from h]; rfl

/-- A completed instruction keeps the length of memory. -/
theorem completes_mem_length {i : Instr} {s t : State} (h : Completes i s t) :
    t.mem.length = s.mem.length := by
  obtain ⟨k, v, -, -, hmem⟩ | ⟨-, hmem⟩ := completes_mem h
  · rw [hmem, List.length_set]
  · rw [hmem]

/-- Settles O43: a fault touches neither, and no completed instruction does. -/
theorem lengthAndParametersAreFixed : Obligations.LengthAndParametersAreFixed := by
  intro s t h
  obtain ⟨-, ⟨r, rfl⟩ | ⟨i, -, hc⟩⟩ := step_next h
  · exact ⟨rfl, rfl⟩
  · exact ⟨completes_mem_length hc, completes_cfg hc⟩

/-- Settles O44: a fault changes none of the three, and a completed instruction of another operation does
not either. -/
theorem onlyTheNamedInstructionsWrite : Obligations.OnlyTheNamedInstructionsWrite := by
  intro s t h
  obtain ⟨-, ⟨r, rfl⟩ | ⟨i, hi, hc⟩⟩ := step_next h
  · exact ⟨fun hne => absurd rfl hne, fun hne => absurd rfl hne, fun hne => absurd rfl hne⟩
  · refine ⟨fun hne => ⟨i, hi, ?_⟩, fun hne => ⟨i, hi, ?_⟩, fun hne => ⟨i, hi, ?_⟩⟩
    · obtain ⟨k, v, hst, -, -⟩ | ⟨-, hmem⟩ := completes_mem hc
      · exact opcode_of_storedCell hst
      · exact absurd hmem hne
    · rw [← completes_consumes hc]
      by_contra hnone
      rw [Option.not_isSome_iff_eq_none] at hnone
      exact hne (by simp [completes_inq hc, hnone])
    · rw [← completes_emits hc]
      by_contra hnone
      rw [Option.not_isSome_iff_eq_none] at hnone
      exact hne (by simp [completes_outq hc, hnone])

/-! The values written and emitted are words. -/

/-- In a state with the invariant an operand is a word. -/
theorem Inv.operand {s : State} (h : Inv s) {k : Nat} {m : Mode} {a : Word}
    (ha : operandAt s k m = some a) : inRange s.cfg.wordBits a = true := by
  obtain ⟨c, hc⟩ := operandAt_cell ha
  exact Memory.wf_cell h.memory hc

/-- In a state with the invariant an input value is a word. -/
theorem Inv.inputWord {s : State} (h : Inv s) {v : Word} (hv : v ∈ s.inq) :
    inRange s.cfg.wordBits v = true :=
  List.all_eq_true.1 h.input v hv

/-- A completed instruction keeps memory well formed: a result has been checked, and an input value is a
word. -/
theorem Inv.completes_memory {i : Instr} {s t : State} (h : Inv s) (hc : Completes i s t) :
    t.mem.wf t.cfg.wordBits = true := by
  cases i with
  | add m1 m2 m3 => obtain ⟨a, b, k, -, -, -, hr, rfl⟩ := hc; exact writeCell_wf h.memory k hr
  | mul m1 m2 m3 => obtain ⟨a, b, k, -, -, -, hr, rfl⟩ := hc; exact writeCell_wf h.memory k hr
  | inp m1 m2 m3 =>
    obtain ⟨k, v, rest, -, hq, rfl⟩ := hc
    exact Memory.wf_set h.memory k (h.inputWord (by simp [hq]))
  | out m1 m2 m3 => obtain ⟨a, -, rfl⟩ := hc; exact h.memory
  | hlt m1 m2 m3 => rw [show t = setHalted s from hc]; exact h.memory

/-- What is left of the input are words, since they were there before. -/
theorem Inv.completes_input {i : Instr} {s t : State} (h : Inv s) (hc : Completes i s t) :
    t.inq.all (inRange t.cfg.wordBits) = true := by
  rw [completes_cfg hc, List.all_eq_true]
  intro v hv
  exact h.inputWord (by rw [completes_inq hc]; exact List.mem_append_right _ hv)

/-- A completed instruction keeps the output a list of words: OUT emits an operand. -/
theorem Inv.completes_output {i : Instr} {s t : State} (h : Inv s) (hc : Completes i s t) :
    t.outq.all (inRange t.cfg.wordBits) = true := by
  cases i with
  | add m1 m2 m3 => obtain ⟨a, b, k, -, -, -, -, rfl⟩ := hc; exact h.output
  | mul m1 m2 m3 => obtain ⟨a, b, k, -, -, -, -, rfl⟩ := hc; exact h.output
  | inp m1 m2 m3 => obtain ⟨k, v, rest, -, -, rfl⟩ := hc; exact h.output
  | out m1 m2 m3 =>
    obtain ⟨a, ha, rfl⟩ := hc
    simp [h.output, h.operand ha]
  | hlt m1 m2 m3 => rw [show t = setHalted s from hc]; exact h.output

/-- No instruction is wider than four cells (30_encoding.md R67). -/
theorem width_le (op : Opcode) : width op ≤ 4 := by cases op <;> decide

/-- A completed instruction leaves `ip` at most three past the end, since it was fetched inside memory and
is at most four cells wide (10_state.md R24). -/
theorem completes_pointer {i : Instr} {s t : State} (hi : fetchInstr s = .ok i)
    (hc : Completes i s t) : t.ip ≤ t.mem.length + 3 := by
  have hin := fetchInstr_ok_lt hi
  have hwidth := width_le (opcode i)
  rw [completes_mem_length hc]
  obtain ⟨-, -, hip⟩ | ⟨-, -, hip⟩ := completes_ip hc <;> omega

/-- A state that is not Faulted meets the record's clause when no record is there. -/
theorem reportOk_of_no_record {s : State} (hs : s.status ≠ .faulted) (hf : s.fault = none) :
    reportOk s = true := by
  unfold reportOk
  cases h : s.status <;> simp_all

/-- A Running state that meets the record's clause has no record. -/
theorem no_record_of_running {s : State} (hs : s.status = .running) (h : reportOk s = true) :
    s.fault = none := by
  unfold reportOk at h
  cases hf : s.fault <;> simp_all

/-- Taking a fault keeps the invariant: the record is written with the status. -/
theorem Inv.takeFault {s : State} (h : Inv s) (r : FaultReason) : Inv (takeFault r s) where
  config := h.config
  memory := h.memory
  pointer := h.pointer
  input := h.input
  output := h.output
  report := by simp [reportOk]

/-- A completed instruction of a Running block keeps the invariant. -/
theorem Inv.completes {i : Instr} {s t : State} (h : Inv s) (hs : s.status = .running)
    (hi : fetchInstr s = .ok i) (hc : Completes i s t) : Inv t where
  config := by rw [completes_cfg hc]; exact h.config
  memory := h.completes_memory hc
  pointer := completes_pointer hi hc
  input := h.completes_input hc
  output := h.completes_output hc
  report :=
    reportOk_of_no_record (stepBody_ok_status hs (stepBody_ok.2 ⟨i, hi, hc⟩))
      ((completes_fault hc).trans (no_record_of_running hs h.report))

/-- Settles O6: taking a fault keeps the invariant, and completing an instruction does. -/
theorem stepKeepsTheInvariant : Obligations.StepKeepsTheInvariant := by
  intro s t h hstep
  obtain ⟨hs, ⟨r, rfl⟩ | ⟨i, hi, hc⟩⟩ := step_next hstep
  · exact h.takeFault r
  · exact h.completes hs hi hc

end Sys2Proof.Machine
end

section
/-! SUPPORT. Runs: they end, their streams are those of the completed instructions, and they deliver a
result (41_io.md, 42_halt.md R103, 70_reset_and_hazards.md R135, R137). -/

namespace Sys2Proof.Machine

/-! ## The streams of a run -/

/-- The history of one step holds at most the instruction that it completes. -/
theorem filterMap_history_one {α : Type} (f : State × Instr → Option α) (s : State) :
    (history 1 s).filterMap f = ((completedInstr s).bind fun i => f (s, i)).toList := by
  cases hc : completedInstr s <;> simp [history, hc, List.filterMap_eq_flatMap_toList]

/-- One use of the `STEP` port appends what its own history emitted. -/
theorem outq_stepPort (s : State) :
    (stepPort s).outq = s.outq ++ (history 1 s).filterMap emittedValue := by
  rw [filterMap_history_one]
  cases hc : completedInstr s with
  | none =>
    obtain ⟨-, -, hout⟩ := completedInstr_none hc
    simpa using hout
  | some i => exact completes_outq (completedInstr_some hc).2

/-- One use of the `STEP` port takes what its own history consumed. -/
theorem inq_stepPort (s : State) :
    s.inq = (history 1 s).filterMap consumedValue ++ (stepPort s).inq := by
  rw [filterMap_history_one]
  cases hc : completedInstr s with
  | none =>
    obtain ⟨-, hin, -⟩ := completedInstr_none hc
    simpa using hin.symm
  | some i => exact completes_inq (completedInstr_some hc).2

/-- Over a run the output grows by what the completed instructions emitted, in order. -/
theorem outq_run (k : Nat) (s : State) :
    (run k s).outq = s.outq ++ (history k s).filterMap emittedValue := by
  induction k generalizing s with
  | zero => simp [run, history]
  | succ k ih =>
    rw [history_succ, List.filterMap_append, ← List.append_assoc, ← outq_stepPort]
    exact ih (stepPort s)

/-- Over a run the input shrinks from the front by what the completed instructions consumed, in order. -/
theorem inq_run (k : Nat) (s : State) :
    s.inq = (history k s).filterMap consumedValue ++ (run k s).inq := by
  induction k generalizing s with
  | zero => simp [run, history]
  | succ k ih =>
    rw [history_succ, List.filterMap_append, List.append_assoc]
    calc s.inq
        = (history 1 s).filterMap consumedValue ++ (stepPort s).inq := inq_stepPort s
      _ = _ := congrArg _ (ih (stepPort s))

/-- Every entry of a history is an instruction that completed from its state. -/
theorem completes_of_mem_history {k : Nat} {s : State} {p : State × Instr} (h : p ∈ history k s) :
    ∃ t, Completes p.2 p.1 t := by
  induction k generalizing s with
  | zero => cases h
  | succ k ih =>
    rcases List.mem_append.1 h with hfirst | hrest
    · obtain ⟨i, hi, rfl⟩ := Option.map_eq_some_iff.1 (Option.mem_toList.1 hfirst)
      exact ⟨_, (completedInstr_some hi).2⟩
    · exact ih hrest

/-- Settles O46: the streams by induction on the number of steps, and the counts because exactly the
completed OUTs emit a value and the completed INs consume one. -/
theorem streamsAreTheCompletedInsAndOuts : Obligations.StreamsAreTheCompletedInsAndOuts := by
  refine fun k s => ⟨outq_run k s, inq_run k s, ?_, ?_⟩
  · rw [List.length_filterMap_eq_countP]
    refine List.countP_congr fun p hp => ?_
    obtain ⟨t, hc⟩ := completes_of_mem_history hp
    rw [beq_iff_eq]
    exact completes_emits hc
  · rw [List.length_filterMap_eq_countP]
    refine List.countP_congr fun p hp => ?_
    obtain ⟨t, hc⟩ := completes_of_mem_history hp
    rw [beq_iff_eq]
    exact completes_consumes hc

/-! ## The end of a run -/

/-- A stopped block has no step, and the `STEP` port ignores it (10_state.md R32). -/
theorem stepPort_of_not_running {s : State} (hs : s.status ≠ .running) : stepPort s = s := by
  unfold stepPort
  split
  · next t h => exact absurd (step_next h).1 hs
  · rfl
  · rfl

/-- Any number of steps leaves a stopped block as it is. -/
theorem run_of_not_running {s : State} (hs : s.status ≠ .running) (k : Nat) : run k s = s := by
  induction k with
  | zero => rfl
  | succ k ih => rw [run, stepPort_of_not_running hs, ih]

/-- Settles O18: a status that is not Running is answered by its named stop, and an accepted LOAD leaves
the start of a run. -/
theorem stoppedBlockStaysStopped : Obligations.StoppedBlockStaysStopped := by
  refine fun s => ⟨fun hs => ?_, fun hs => ?_,
    fun hs => ⟨stepPort_of_not_running hs, run_of_not_running hs⟩, fun program input t h => ?_⟩
  · simp [step, stopped, hs]
  · simp [step, stopped, hs]
  · obtain ⟨-, -, rfl⟩ := load_next.1 h
    exact ⟨rfl, rfl⟩

/-- A step ends the run, or it was inside memory and advances `ip` by at least 2 (42_halt.md R103). -/
theorem step_ends_or_advances {s t : State} (h : step s = .next t) :
    t.status ≠ .running ∨ (s.ip < s.mem.length ∧ s.ip + 2 ≤ t.ip) := by
  by_cases ht : t.status = .running
  · obtain ⟨i, hi, hop, hip⟩ := step_running h ht
    have hwidth : 2 ≤ width (opcode i) := by
      cases hcase : opcode i with
      | hlt => exact absurd hcase hop
      | _ => decide
    exact .inr ⟨fetchInstr_ok_lt hi, by omega⟩
  · exact .inl ht

/-- The same of the `STEP` port, which also keeps the length of memory. -/
theorem stepPort_ends_or_advances (s : State) :
    (stepPort s).status ≠ .running ∨ (s.ip < s.mem.length ∧ s.ip + 2 ≤ (stepPort s).ip ∧
      (stepPort s).mem.length = s.mem.length) := by
  by_cases hs : s.status = .running
  · obtain ⟨t, ht⟩ := runningBlockAlwaysSteps s hs
    obtain ⟨hlen, -⟩ := lengthAndParametersAreFixed s t ht
    rw [stepPort_of_step ht]
    exact (step_ends_or_advances ht).imp_right fun ⟨hin, hip⟩ => ⟨hin, hip, hlen⟩
  · exact .inl (by rwa [stepPort_of_not_running hs])

/-- With at most `2 * n` cells left, `n + 1` steps end the run: each takes at least two, and none runs
outside memory. -/
theorem run_ends {n : Nat} {s : State} (hn : s.mem.length ≤ s.ip + 2 * n) :
    (run (n + 1) s).status ≠ .running := by
  induction n generalizing s with
  | zero =>
    obtain hend | ⟨hin, -⟩ := stepPort_ends_or_advances s
    · exact hend
    · omega
  | succ n ih =>
    obtain hend | ⟨-, hip, hlen⟩ := stepPort_ends_or_advances s
    · rwa [run, run_of_not_running hend]
    · exact ih (by omega)

/-- Settles O45: the number of steps left is bounded by the cells left. -/
theorem everyRunEnds : Obligations.EveryRunEnds := by
  refine ⟨fun s t => step_ends_or_advances, fun s hip => ⟨_, le_refl _, run_ends (by omega)⟩,
    fun s => run_ends (by omega)⟩

/-- The run of a program has ended within its fuel. -/
theorem runToEnd_ends {s : State} (hip : s.ip = 0) : (runToEnd s).status ≠ .running :=
  run_ends (by omega)

/-- A run that is Faulted has come to a Running state and taken a fault there (60_exceptions.md R115). -/
theorem run_faulted {k : Nat} {s : State} (hs : s.status = .running)
    (h : (run k s).status = .faulted) :
    ∃ (j : Nat) (r : FaultReason),
      (run j s).status = .running ∧ run k s = faultedWith (run j s) r := by
  induction k generalizing s with
  | zero => simp [run, hs] at h
  | succ k ih =>
    obtain ⟨t, hstep⟩ := runningBlockAlwaysSteps s hs
    simp only [run, stepPort_of_step hstep] at h ⊢
    by_cases ht : t.status = .running
    · obtain ⟨j, r, hj, he⟩ := ih ht h
      refine ⟨j + 1, r, ?_⟩
      rw [run, stepPort_of_step hstep]
      exact ⟨hj, he⟩
    · rw [run_of_not_running ht] at h ⊢
      obtain ⟨r, rfl⟩ := step_faulted hstep h
      exact ⟨0, r, hs, takeFault_eq s r⟩

/-- Settles O51: the run has ended; Halted is the safe case, and Faulted is a fault taken in a state of the
run, whose report the port shows. -/
theorem everyRunDeliversAResult : Obligations.EveryRunDeliversAResult := by
  intro s hs hip
  cases hend : (runToEnd s).status with
  | running => exact absurd hend (runToEnd_ends hip)
  | halted =>
    have hresult : runResult (runToEnd s) = .completed (runToEnd s).mem (runToEnd s).outq := by
      simp only [runResult, hend]
    exact .inl ⟨hend, hresult, fun a => by rw [hresult]; rfl⟩
  | faulted =>
    obtain ⟨k, r, hk, he⟩ := run_faulted hs hend
    refine .inr ⟨by simp [RunsSafely, hend], ?_⟩
    rw [show runToEnd s = faultedWith (run k s) r from he]
    exact ⟨_, k, _, r, rfl, rfl, hk, rfl, rfl, rfl, rfl, rfl, fun _ => rfl⟩

end Sys2Proof.Machine
end

section
/-! SUPPORT. The instructions one by one: the whole effect, the exceptions and the frame of each
(40_arithmetic.md, 41_io.md, 42_halt.md). -/

namespace Sys2Proof.Machine

/-- An instruction that raises a reason takes that fault. -/
theorem exec_of_raises {i : Instr} {s : State} {r : FaultReason} (h : execBody i s = .error r) :
    exec i s = .next (faultedWith s r) := by
  rw [exec_eq_finish, h, finish_error, takeFault_eq]

/-- Settles O30: HLT answers with the status alone changed. -/
theorem haltCompletes : Obligations.HaltCompletes := fun _ _ _ _ => rfl

/-- Settles O37: no meaning looks at these digits. -/
theorem unconsultedModesHaveNoEffect : Obligations.UnconsultedModesHaveNoEffect :=
  fun _ _ _ _ _ _ _ => ⟨rfl, rfl, rfl, rfl, rfl⟩

/-! ## ADD and MUL -/

/-- Settles O19: the operands, the target and the range are what ADD asks of a state to complete. -/
theorem addCompletes : Obligations.AddCompletes := fun _ _ _ _ a b t ha hb ht hlt hr =>
  exec_of_completes ⟨a, b, t, ha, hb, targetAt_eq_some.2 ⟨ht, hlt⟩, hr, rfl⟩

/-- Settles O20: the operands, the target and the range are what MUL asks of a state to complete. -/
theorem mulCompletes : Obligations.MulCompletes := fun _ _ _ _ a b t ha hb ht hlt hr =>
  exec_of_completes ⟨a, b, t, ha, hb, targetAt_eq_some.2 ⟨ht, hlt⟩, hr, rfl⟩

/-- With operands and target in bounds, a result that a cell cannot hold is Overflow. -/
theorem binaryBody_overflow {op : Opcode} {f : Int → Int → Int} {m1 m2 : Mode} {s : State} {a b : Int}
    {t : Nat} (ha : operandAt s 1 m1 = some a) (hb : operandAt s 2 m2 = some b)
    (ht : cellAt s.mem (s.ip + 3) = some (t : Int)) (hlt : t < s.mem.length)
    (hr : inRange s.cfg.wordBits (f a b) = false) :
    binaryBody op f m1 m2 s = .error .overflow :=
  binaryBody_error.2
    (.inr ⟨a, ha, .inr ⟨b, hb, .inr ⟨t, targetAt_eq_some.2 ⟨ht, hlt⟩, hr, rfl⟩⟩⟩)

/-- A source raises OutOfBounds of an address outside memory and nothing else. -/
theorem resolve_raises_outside {k : Nat} {m : Mode} {s : State} {r : FaultReason}
    (h : resolve k m s = .error r) : ∃ a, r = .outOfBounds a ∧ cellAt s.mem a = none := by
  obtain ⟨hn, rfl⟩ | ⟨p, -, -, hn, rfl⟩ := resolve_error.1 h
  · exact ⟨_, rfl, hn⟩
  · exact ⟨p, rfl, hn⟩

/-- A write target raises OutOfBounds of an address outside memory and nothing else. -/
theorem target_raises_outside {k : Nat} {s : State} {r : FaultReason} (h : target k s = .error r) :
    ∃ a, r = .outOfBounds a ∧ cellAt s.mem a = none := by
  obtain ⟨hn, rfl⟩ | ⟨p, -, hn, rfl⟩ := target_error.1 h
  · exact ⟨_, rfl, hn⟩
  · exact ⟨p, rfl, hn⟩

/-- ADD and MUL raise OutOfBounds of an address outside memory, or Overflow for a result out of range. -/
theorem binaryBody_raises {op : Opcode} {f : Int → Int → Int} {m1 m2 : Mode} {s : State}
    {r : FaultReason} (h : binaryBody op f m1 m2 s = .error r) :
    (∃ a, r = .outOfBounds a ∧ cellAt s.mem a = none) ∨
      (r = .overflow ∧ ∃ v, inRange s.cfg.wordBits v = false) := by
  obtain h1 | ⟨a, -, h2 | ⟨b, -, h3 | ⟨k, -, hr, rfl⟩⟩⟩ := binaryBody_error.1 h
  · exact .inl (resolve_raises_outside h1)
  · exact .inl (resolve_raises_outside h2)
  · exact .inl (target_raises_outside h3)
  · exact .inr ⟨rfl, _, hr⟩

/-- With INF every result is in range, so ADD and MUL do not raise Overflow. -/
theorem binaryBody_ne_overflow {op : Opcode} {f : Int → Int → Int} {m1 m2 : Mode} {s : State}
    (hinf : s.cfg.wordBits = .inf) : binaryBody op f m1 m2 s ≠ .error .overflow := by
  intro h
  obtain ⟨a, hr, -⟩ | ⟨-, v, hv⟩ := binaryBody_raises h
  · cases hr
  · rw [hinf, inRange_inf] at hv
    cases hv

/-- An instruction that ends with a fault of its own state has raised it or left `ip` where it was. -/
theorem execBody_of_faultedWith {i : Instr} {s : State} {r : FaultReason} (hop : opcode i ≠ .hlt)
    (h : exec i s = .next (faultedWith s r)) : execBody i s = .error r := by
  rw [exec_eq_finish] at h
  cases hb : execBody i s with
  | error r' =>
    rw [hb, finish_error] at h
    have hfault := congrArg State.fault (Host.Outcome.next.inj h)
    simp only [takeFault_fault, faultedWith, Option.some.injEq, FaultReport.mk.injEq] at hfault
    rw [hfault.1]
  | ok t =>
    rw [hb, finish_ok] at h
    obtain rfl := Host.Outcome.next.inj h
    obtain ⟨-, -, hip⟩ | ⟨hhlt, -, -⟩ := completes_ip (execBody_ok.1 hb)
    · have hwidth : 0 < width (opcode i) := by cases opcode i <;> decide
      simp only [faultedWith] at hip
      omega
    · exact absurd hhlt hop

/-- Settles O21: a result outside the bounds raises Overflow; with INF it is never raised. -/
theorem overflowFaultsAndWritesNothing : Obligations.OverflowFaultsAndWritesNothing := by
  constructor
  · intro s m1 m2 m3 a b t n hbits ha hb ht hlt
    have outside {v : Int} (hv : v < -(2 ^ (n - 1) : Int) ∨ 2 ^ (n - 1) - 1 < v) :
        inRange s.cfg.wordBits v = false := by
      rw [hbits]
      exact inRange_bits_eq_false.2 hv
    exact ⟨fun hr => exec_of_raises (binaryBody_overflow ha hb ht hlt (outside hr)),
      fun hr => exec_of_raises (binaryBody_overflow ha hb ht hlt (outside hr))⟩
  · intro s m1 m2 m3 hinf
    exact ⟨fun h => binaryBody_ne_overflow hinf (execBody_of_faultedWith (i := .add m1 m2 m3) nofun h),
      fun h => binaryBody_ne_overflow hinf (execBody_of_faultedWith (i := .mul m1 m2 m3) nofun h)⟩

/-- A write to the target of parameter `k` leaves every other address alone. -/
theorem cellAt_set_target {s : State} {k t : Nat} {v : Word} {a : Int} (ht : targetAt s k = some t)
    (ha : ∀ j : Nat, targetAt s k = some j → a ≠ j) : cellAt (s.mem.set t v) a = cellAt s.mem a :=
  cellAt_set_of_ne (ha t ht)

/-- ADD and MUL write their target and advance, or take a fault. -/
theorem arithmetic_next {s t : State} {m1 m2 m3 : Mode}
    (h : exec (.add m1 m2 m3) s = .next t ∨ exec (.mul m1 m2 m3) s = .next t) :
    (∃ (op : Opcode) (k : Nat) (v : Int), targetAt s 3 = some k ∧ t = advance op (writeCell k v s)) ∨
      ∃ r, t = takeFault r s := by
  obtain h | h := h
  · exact (exec_next h).imp_left fun ⟨a, b, k, _, _, hk, _, ht⟩ => ⟨.add, k, a + b, hk, ht⟩
  · exact (exec_next h).imp_left fun ⟨a, b, k, _, _, hk, _, ht⟩ => ⟨.mul, k, a * b, hk, ht⟩

/-- Settles O22: the commit writes the target cell and `ip`, and a fault the status and the record. -/
theorem arithmeticFrame : Obligations.ArithmeticFrame := by
  intro s t m1 m2 m3 h
  obtain ⟨op, k, v, hk, rfl⟩ | ⟨r, rfl⟩ := arithmetic_next h
  · exact ⟨rfl, rfl, rfl, List.length_set, .inr ⟨rfl, rfl⟩, fun a ha => cellAt_set_target hk ha⟩
  · exact ⟨rfl, rfl, rfl, rfl, .inl rfl, fun _ _ => rfl⟩

/-! ## IN and OUT -/

/-- Settles O23: the target and the input value are what IN asks of a state to complete. -/
theorem inCompletes : Obligations.InCompletes := fun _ _ _ _ v rest t ht hlt hq =>
  exec_of_completes ⟨t, v, rest, targetAt_eq_some.2 ⟨ht, hlt⟩, hq, rfl⟩

/-- Settles O25: the target raises before the queue is looked at. -/
theorem inChecksItsTargetFirst : Obligations.InChecksItsTargetFirst := by
  intro s m1 m2 m3 p hp hout
  have htarget : target 1 s = .error (.outOfBounds p) :=
    target_error.2 (.inr ⟨p, hp, cellAt_eq_none_iff.2 hout, rfl⟩)
  exact exec_of_raises (i := .inp m1 m2 m3) (inputBody_error.2 (.inl htarget))

/-- Settles O26: the commit writes the target cell, the input queue and `ip`, and a fault the status and the
record. -/
theorem inFrame : Obligations.InFrame := by
  intro s t m1 m2 m3 h
  obtain ⟨k, v, rest, hk, -, rfl⟩ | ⟨r, rfl⟩ := exec_next h
  · exact ⟨rfl, rfl, List.length_set, .inr ⟨rfl, rfl⟩, fun a ha => cellAt_set_target hk ha⟩
  · exact ⟨rfl, rfl, rfl, .inl rfl, fun _ _ => rfl⟩

/-- Settles O27: the operand is what OUT asks of a state to complete. -/
theorem outCompletes : Obligations.OutCompletes := fun _ _ _ _ a ha => exec_of_completes ⟨a, ha, rfl⟩

/-- Settles O28: the commit writes the output queue and `ip`, and a fault the status and the record. -/
theorem outFrame : Obligations.OutFrame := by
  intro s t m1 m2 m3 h
  obtain ⟨a, -, rfl⟩ | ⟨r, rfl⟩ := exec_next h
  · exact ⟨rfl, rfl, rfl, .inr ⟨rfl, rfl⟩, fun _ => rfl⟩
  · exact ⟨rfl, rfl, rfl, .inl rfl, fun _ => rfl⟩

/-- Settles O29: the address `N - 1` holds the last cell, and the others hold none. -/
theorem lastCellIsReadAndTheNextFaults : Obligations.LastCellIsReadAndTheNextFaults := by
  intro s m2 m3 p hp
  constructor
  · rintro rfl
    have hnonempty := cellAt_bounds hp
    have hindex : (s.mem.length : Int) - 1 = (s.mem.length - 1 : Nat) := by omega
    obtain ⟨v, hv⟩ := Option.isSome_iff_exists.1
      ((cellAt_isSome_iff (m := s.mem) (a := (s.mem.length : Int) - 1)).2 (by omega))
    refine ⟨v, ?_, outCompletes s .position m2 m3 v (Option.bind_eq_some_iff.2 ⟨_, hp, hv⟩)⟩
    rwa [List.getLast?_eq_getElem?, ← cellAt_natCast, ← hindex]
  · intro hout
    have hsource : resolve 1 .position s = .error (.outOfBounds p) :=
      resolve_error.2 (.inr ⟨p, hp, rfl, cellAt_eq_none_iff.2 hout, rfl⟩)
    exact exec_of_raises (i := .out .position m2 m3) (outputBody_error.2 hsource)

/-! ## HLT -/

/-- Settles O31: a fault leaves the block Faulted and a completed instruction leaves it Running, unless it
is HLT. -/
theorem onlyHaltWordsHalt : Obligations.OnlyHaltWordsHalt := by
  intro s t h ht
  obtain ⟨hs, ⟨r, rfl⟩ | ⟨i, hi, hc⟩⟩ := step_next h
  · cases ht
  · obtain ⟨w, hw, hdec⟩ := fetchInstr_ok.1 hi
    obtain ⟨-, hsame, -⟩ | ⟨hop, -, -⟩ := completes_ip hc
    · rw [hsame, hs] at ht
      cases ht
    · cases i with
      | hlt m1 m2 m3 => exact ⟨w, m1, m2, m3, hw, hdec, hc⟩
      | _ => cases hop

/-- Settles O36: the eight words are those listed for HLT. -/
theorem haltWordsHalt : Obligations.HaltWordsHalt :=
  fun _ _ hs hw hmem => step_listedWord (op := .hlt) hs hw hmem

/-! ## Self-modifying code -/

/-- Settles O48: the ADD completes, and the cell it wrote is the one at the new `ip`. -/
theorem writtenWordIsFetchedNext : Obligations.WrittenWordIsFetchedNext := by
  intro s w a b m1 m2 m3 j hs hw hdec ha hb ht hlt hr hj
  have hstep := (stepRunsTheDecodedInstruction s w _ hs hw hdec).trans
    (addCompletes s m1 m2 m3 a b _ ha hb ht hlt hr)
  exact ⟨_, hstep, rfl, cellAt_set_self hlt,
    stepRunsTheDecodedInstruction _ _ j hs (cellAt_set_self hlt) hj⟩

/-- Settles O52: the word that is placed is the one fetched, and it decodes to the instruction. -/
theorem placedWordRunsNext : Obligations.PlacedWordRunsNext := by
  intro s nbits i
  have hnonneg : 0 ≤ encode i := (decode_ok.1 (decode_encode i)).1
  refine step_of_fetch_ok rfl ?_
  rw [withFetchWord_fetch, Int.toNat_of_nonneg hnonneg, decode_encode]

end Sys2Proof.Machine
end

section
/-! SUPPORT. Faults: what a faulting step leaves and what its report holds (60_exceptions.md sections 1 and
3). -/

namespace Sys2Proof.Machine

/-- Settles O40: a step that ends Faulted has taken a fault in the state before it. -/
theorem faultingStepCommitsNothing : Obligations.FaultingStepCommitsNothing := by
  intro s t h ht
  obtain ⟨r, rfl⟩ := step_faulted h ht
  exact ⟨r, takeFault_eq s r⟩

/-- The decoder raises no OutOfBounds. -/
theorem decode_ne_outOfBounds {w a : Int} : decode w ≠ .error (.outOfBounds a) := by
  by_cases hneg : w < 0
  · simp [decode_badOpcode (.inl hneg)]
  · lift w to ℕ using not_lt.1 hneg
    cases hop : opcodeOf (w % 100) with
    | none => simp [decode, hop]
    | some op => simp [decode_of_opcode (opcodeOf_eq_some.1 hop), decodeModes_error]

/-- An instruction raises OutOfBounds only of an address outside memory (R113). -/
theorem execBody_outOfBounds {i : Instr} {s : State} {a : Int}
    (h : execBody i s = .error (.outOfBounds a)) : cellAt s.mem a = none := by
  have arithmetic {op : Opcode} {f : Int → Int → Int} {m1 m2 : Mode}
      (h : binaryBody op f m1 m2 s = .error (.outOfBounds a)) : cellAt s.mem a = none := by
    obtain ⟨b, e, hn⟩ | ⟨e, -⟩ := binaryBody_raises h
    · exact FaultReason.outOfBounds.inj e ▸ hn
    · cases e
  cases i with
  | add m1 m2 m3 => exact arithmetic h
  | mul m1 m2 m3 => exact arithmetic h
  | inp m1 m2 m3 =>
    obtain htarget | ⟨k, -, -, e⟩ := inputBody_error.1 h
    · obtain ⟨b, e, hn⟩ := target_raises_outside htarget
      exact FaultReason.outOfBounds.inj e ▸ hn
    · cases e
  | out m1 m2 m3 =>
    obtain ⟨b, e, hn⟩ := resolve_raises_outside (outputBody_error.1 h)
    exact FaultReason.outOfBounds.inj e ▸ hn
  | hlt m1 m2 m3 => cases h

/-- A step raises OutOfBounds only of an address outside memory (R113). -/
theorem stepBody_outOfBounds {s : State} {a : Int} (h : stepBody s = .error (.outOfBounds a)) :
    cellAt s.mem a = none := by
  obtain hfetch | ⟨i, -, hexec⟩ := bind_error.1 h
  · obtain ⟨hn, e⟩ | ⟨w, -, hdec⟩ := fetchInstr_error.1 hfetch
    · exact FaultReason.outOfBounds.inj e ▸ hn
    · exact absurd hdec decode_ne_outOfBounds
  · exact execBody_outOfBounds hexec

theorem faultCode_bounds (r : FaultReason) : 1 ≤ faultCode r ∧ faultCode r ≤ 5 := by
  cases r <;> simp [faultCode]

theorem faultAddr_isSome (r : FaultReason) : (faultAddr r).isSome = true ↔ faultCode r = 3 := by
  cases r <;> simp [faultAddr, faultCode]

theorem faultParam_isSome (r : FaultReason) : (faultParam r).isSome = true ↔ faultCode r = 2 := by
  cases r <;> simp [faultParam, faultCode]

theorem faultAddr_eq_some {r : FaultReason} {a : Int} :
    faultAddr r = some a ↔ r = .outOfBounds a := by
  cases r <;> simp [faultAddr]

theorem digitIndex_bounds (d : ModeDigit) : 1 ≤ digitIndex d ∧ digitIndex d ≤ 4 := by
  cases d <;> decide

/-- The digit index of a report is one of the four (10_state.md R26). -/
theorem faultParam_bounds {r : FaultReason} {p : Nat} (h : faultParam r = some p) : 1 ≤ p ∧ p ≤ 4 := by
  cases r with
  | invalidMode d =>
    obtain rfl := Option.some.inj h
    exact digitIndex_bounds d
  | _ => cases h

/-- Settles O41: the record is that of the reason raised, whose fields are valid as its number says. -/
theorem faultReportFields : Obligations.FaultReportFields := by
  intro s t h ht
  obtain hok | ⟨r, hr, rfl⟩ := step_next_body h
  · exact absurd ht (stepBody_ok_status (step_next h).1 hok)
  · obtain ⟨hlow, hhigh⟩ := faultCode_bounds r
    refine ⟨_, rfl, rfl, rfl, (cellAt_natCast s.mem s.ip).symm, hlow, hhigh, faultAddr_isSome r,
      faultParam_isSome r, fun a ha => ?_, fun p hp => faultParam_bounds hp⟩
    obtain rfl := faultAddr_eq_some.1 ha
    exact cellAt_eq_none_iff.1 (stepBody_outOfBounds hr)

end Sys2Proof.Machine
end

section
/-! SUPPORT. What a step does not depend on: the output emitted before it and the fault record (10_state.md
sections 5 and 6). -/

namespace Sys2Proof.Machine

/-- A change of the state that instructions do not see: they read the same values before it and after it,
and it can be made before their effect or after it. -/
structure Unseen (F : State → State) : Prop where
  cfg : ∀ s, (F s).cfg = s.cfg
  mem : ∀ s, (F s).mem = s.mem
  ip : ∀ s, (F s).ip = s.ip
  status : ∀ s, (F s).status = s.status
  inq : ∀ s, (F s).inq = s.inq
  write : ∀ t v s, F (writeCell t v s) = writeCell t v (F s)
  take : ∀ (rest : List Word) (s : State), F { s with inq := rest } = { F s with inq := rest }
  emit : ∀ v s, F (Machine.emit v s) = Machine.emit v (F s)
  advance : ∀ op s, F (Machine.advance op s) = Machine.advance op (F s)
  halt : ∀ s, F (setHalted s) = setHalted (F s)

namespace Unseen

variable {F : State → State} (h : Unseen F)
include h

theorem fetchInstr_eq (s : State) : fetchInstr (F s) = fetchInstr s := by
  simp only [fetchInstr, h.mem, h.ip]

theorem resolve_eq (k : Nat) (m : Mode) (s : State) : resolve k m (F s) = resolve k m s := by
  simp only [resolve, param, h.mem, h.ip]

theorem target_eq (k : Nat) (s : State) : target k (F s) = target k s := by
  simp only [target, param, h.mem, h.ip]

theorem checkResult_eq (s : State) (r : Int) : checkResult (F s) r = checkResult s r := by
  simp only [checkResult, h.cfg]

theorem takeInput_eq (s : State) :
    takeInput (F s) = (takeInput s).map fun p => (p.1, F p.2) := by
  simp only [takeInput, h.inq]
  cases s.inq with
  | nil => rfl
  | cons v rest => exact congrArg (fun t => Except.ok (v, t)) (h.take rest s).symm

theorem binaryBody_eq (op : Opcode) (f : Int → Int → Int) (m1 m2 : Mode) (s : State) :
    binaryBody op f m1 m2 (F s) = (binaryBody op f m1 m2 s).map F := by
  simp only [binaryBody, h.resolve_eq, h.target_eq, h.checkResult_eq, ← h.write, ← h.advance]
  cases resolve 1 m1 s with
  | error r => rfl
  | ok a =>
    cases resolve 2 m2 s with
    | error r => rfl
    | ok b =>
      cases target 3 s with
      | error r => rfl
      | ok t =>
        simp only [bind, Except.bind]
        cases checkResult s (f a b) <;> rfl

theorem inputBody_eq (s : State) : inputBody (F s) = (inputBody s).map F := by
  simp only [inputBody, h.target_eq, h.takeInput_eq]
  cases target 1 s with
  | error r => rfl
  | ok t =>
    simp only [bind, Except.bind]
    cases takeInput s with
    | error r => rfl
    | ok p => simp only [Except.map, h.write, h.advance]

theorem outputBody_eq (m1 : Mode) (s : State) : outputBody m1 (F s) = (outputBody m1 s).map F := by
  simp only [outputBody, h.resolve_eq, ← h.emit, ← h.advance]
  cases resolve 1 m1 s <;> rfl

/-- Every instruction raises the same, or commits the changed effect. -/
theorem execBody_eq (i : Instr) (s : State) : execBody i (F s) = (execBody i s).map F := by
  cases i with
  | add m1 m2 m3 => exact h.binaryBody_eq _ _ m1 m2 s
  | mul m1 m2 m3 => exact h.binaryBody_eq _ _ m1 m2 s
  | inp m1 m2 m3 => exact h.inputBody_eq s
  | out m1 m2 m3 => exact h.outputBody_eq m1 s
  | hlt m1 m2 m3 => exact congrArg Except.ok (h.halt s).symm

/-- So does the step before its end. -/
theorem stepBody_eq (s : State) : stepBody (F s) = (stepBody s).map F := by
  simp only [stepBody, h.fetchInstr_eq, h.execBody_eq]
  cases fetchInstr s <;> rfl

/-- A step of the changed state, by what the step of the state itself does before its end. -/
theorem step_eq {s : State} (hs : s.status = .running) :
    step (F s) = finish (F s) ((stepBody s).map F) := by
  rw [step_eq_finish ((h.status s).trans hs), h.stepBody_eq]

end Unseen

/-- The state with more output emitted before. -/
def withOutputBefore (before : List Word) (s : State) : State := { s with outq := before ++ s.outq }

/-- What was emitted before is not seen: OUT appends at the other end. -/
theorem withOutputBefore_unseen (before : List Word) : Unseen (withOutputBefore before) where
  cfg _ := rfl
  mem _ := rfl
  ip _ := rfl
  status _ := rfl
  inq _ := rfl
  write _ _ _ := rfl
  take _ _ := rfl
  emit v s := by simp [withOutputBefore, emit]
  advance _ _ := rfl
  halt _ := rfl

/-- Settles O49: the output emitted before is kept by a commit and by a fault, and decides neither. -/
theorem outputIsNeverReadBack : Obligations.OutputIsNeverReadBack := by
  intro s before
  show step (withOutputBefore before s) = _
  cases hs : s.status with
  | running =>
    rw [(withOutputBefore_unseen before).step_eq hs, step_eq_finish hs]
    cases stepBody s <;> rfl
  | halted => simp [step, stopped, withOutputBefore, hs]
  | faulted => simp [step, stopped, withOutputBefore, hs]

/-- The state with another fault record. -/
def withRecord (f : Option FaultReport) (s : State) : State := { s with fault := f }

/-- The fault record is not seen. -/
theorem withRecord_unseen (f : Option FaultReport) : Unseen (withRecord f) where
  cfg _ := rfl
  mem _ := rfl
  ip _ := rfl
  status _ := rfl
  inq _ := rfl
  write _ _ _ := rfl
  take _ _ := rfl
  emit _ _ := rfl
  advance _ _ := rfl
  halt _ := rfl

/-- Settles O50: a commit keeps the record there is, and a fault writes its own over it. -/
theorem faultRecordIsNeverRead : Obligations.FaultRecordIsNeverRead := by
  intro s t f hs h
  show step (withRecord f s) = _
  rw [(withRecord_unseen f).step_eq hs]
  obtain hok | ⟨r, hr, rfl⟩ := step_next_body h
  · rw [hok, if_neg (stepBody_ok_status hs hok)]
    rfl
  · rw [hr, if_pos (takeFault_status s r)]
    rfl

end Sys2Proof.Machine
end

section
/-! SUPPORT. Assembly and disassembly as inverses (30_encoding.md R75, R76). -/

namespace Sys2Proof.Machine

/-- Settles O53: the word of a statement decodes to its operation with the modes of its operands, and to
Position for the operands it does not have. -/
theorem assembledStatementsDisassemble : Obligations.AssembledStatementsDisassemble := by
  intro st rest hst
  cases st with
  | add s1 s2 d => simp [assemble, assembleWith, disassemble, instrOf]
  | mul s1 s2 d => simp [assemble, assembleWith, disassemble, instrOf]
  | inp d => simp [assemble, assembleWith, disassemble, instrOf, absentZero]
  | out s => simp [assemble, assembleWith, disassemble, instrOf, absentZero]
  | hlt => simp [assemble, assembleWith, disassemble, instrOf, absentZero]
  | word vs => exact absurd rfl (hst vs)

/-- Assembling what disassembly finds, with the digits it keeps, gives the cells back. -/
theorem assembleWith_disassemble {cells : List Word} {d : Disassembly}
    (h : disassemble cells = some d) : assembleWith d.absent d.statement ++ d.rest = cells := by
  cases cells with
  | nil => cases h
  | cons w cells =>
    simp only [disassemble] at h
    split at h <;> obtain rfl := Option.some.inj h
    case h_6 => rfl
    all_goals next hdec => rw [eq_encode_of_decode hdec]; rfl

/-- Settles O54: the word is the encoding of what it decodes to, and assembling a source statement is
assembling it with the digits 0. -/
theorem disassembledCellsAssemble : Obligations.DisassembledCellsAssemble := by
  intro cells d h
  refine ⟨assembleWith_disassemble h, fun habsent => ?_⟩
  rw [assemble, ← habsent]
  exact assembleWith_disassemble h

/-- Settles O55: with its parameter cells there, each operation has its own statement; a word that does not
decode has none. -/
theorem validWordsDisassembleToTheirMnemonic : Obligations.ValidWordsDisassembleToTheirMnemonic := by
  refine ⟨fun w i cells hdec hlen => ?_, fun w r cells hdec => by simp [disassemble, hdec]⟩
  cases i with
  | add m1 m2 m3 =>
    match cells, hlen with
    | p1 :: p2 :: p3 :: rest, _ => simp only [disassemble, hdec]; exact ⟨_, rfl, rfl, rfl⟩
  | mul m1 m2 m3 =>
    match cells, hlen with
    | p1 :: p2 :: p3 :: rest, _ => simp only [disassemble, hdec]; exact ⟨_, rfl, rfl, rfl⟩
  | inp m1 m2 m3 =>
    match cells, hlen with
    | p1 :: rest, _ => simp only [disassemble, hdec]; exact ⟨_, rfl, rfl, rfl⟩
  | out m1 m2 m3 =>
    match cells, hlen with
    | p1 :: rest, _ => simp only [disassemble, hdec]; exact ⟨_, rfl, rfl, rfl⟩
  | hlt m1 m2 m3 => simp only [disassemble, hdec]; exact ⟨_, rfl, rfl, rfl⟩

end Sys2Proof.Machine
end
